-- ==== Sys2Proof/Word.lean ====
section
/-! DEFINITION. The one word of the block: a byte, bits 7 down to 0 (`00_scope.md` R10). Every transfer is one byte (R62). -/

namespace Sys2Proof

/-- A byte: an unsigned value in 0..255, bits numbered 7 (most significant) down to 0 (R10). -/
abbrev Byte := BitVec 8

end Sys2Proof
end

