-- ==== Sys2Proof/Config.lean ====
section
/-! DEFINITION. What the source leaves to both ends of a link to agree on: the checksum algorithm (`00_scope.md` R8,
`93_implementation_defined.md` U1). It is an uninterpreted constant with the one law the spec gives it (R114). -/

namespace Sys2Proof

/-- The open parameter of R8: `init` is `CK_INIT`, `step` is `CK_STEP`, and `residue` is the self-verifying residue law R114,
the one law the two must satisfy: for every byte sequence `B`, `CK_STEP(CK(B), CK(B)) = 0x00`, where `CK(B)` is the left fold
of `CK_STEP` from `CK_INIT` (R113).

The default values only show that the type is inhabited, which Lean asks before it lets a constant of it be declared; no
machine is built from them and no proof can find them behind `Config.checksum` (log 1). -/
structure Checksum where
  init : Byte := 0#8
  step : Byte → Byte → Byte := fun v b => v ^^^ b
  residue : ∀ B : List Byte, step (B.foldl step init) (B.foldl step init) = 0#8 := by intro B; simp
deriving Inhabited

/-- The checksum this hardware was built with: fixed for its life, the same at both ends of a link (R8, R39, R223). It has no
body: nothing is known of it but R114 (log 1). -/
opaque Config.checksum : Checksum

end Sys2Proof
end

