-- ==== Sys2Proof/Machine/Operands.lean ====
section
/-! DEFINITION. The operand forms of the wire: the constants of R7, the header byte (R82 to R84) and escaping (R85 to R87). -/

namespace Sys2Proof.Machine

/-- `LEADING_FLAG` (R7): start-of-frame flag, also the closing flag. -/
abbrev leadingFlag : Byte := 0x55#8

/-- `ESCAPE_FLAG` (R7): the escape prefix. -/
abbrev escapeFlag : Byte := 0xAA#8

/-- `CODE_55` (R7): the escape code for an intended `0x55`. -/
abbrev escapeCode55 : Byte := 0x05#8

/-- `CODE_AA` (R7): the escape code for an intended `0xAA`. -/
abbrev escapeCodeAA : Byte := 0x0A#8

/-- `VALID_RESIDUE` (R7): the accumulator value that means the frame is valid. -/
abbrev validResidue : Byte := 0x00#8

/-- `pack(service, length)` (R83): `(service << 6) | length`, the header byte of R82. -/
def pack (service : BitVec 2) (length : BitVec 6) : Byte :=
  (service.setWidth 8 <<< 6) ||| length.setWidth 8

/-- `h[7:6]` (R84). -/
abbrev headerService (h : Byte) : BitVec 2 := h.extractLsb' 6 2

/-- `h[5:0]` (R84). -/
abbrev headerLength (h : Byte) : BitVec 6 := h.extractLsb' 0 6

/-- `unpack(h)` (R84). -/
def unpack (h : Byte) : BitVec 2 × BitVec 6 := (headerService h, headerLength h)

/-- `enc(b)` (R86): the one or two wire bytes of a content byte. -/
def enc (b : Byte) : List Byte :=
  if b = leadingFlag then [escapeFlag, escapeCode55]
  else if b = escapeFlag then [escapeFlag, escapeCodeAA]
  else [b]

/-- `dec(c)` (R87): the content byte an escape code stands for; `none` is BADCODE. -/
def dec (c : Byte) : Option Byte :=
  if c = escapeCode55 then some leadingFlag
  else if c = escapeCodeAA then some escapeFlag
  else none

/-- The content byte a raw byte gives to the body logic (R81, R140): none for a flag, an escape prefix or a bad code. -/
def contentByte (escPending : Bool) (b : Byte) : Option Byte :=
  if b = leadingFlag then none
  else if escPending then dec b
  else if b = escapeFlag then none
  else some b

/-- The content bytes of raw bytes that hold no flag, read from a receiver with the escape bit given: `none` if one of them is a
bad code, or the last one leaves an escape pending (R81, R91). -/
def unescape : Bool → List Byte → Option (List Byte)
  | escPending, [] => if escPending then none else some []
  | true, b :: rest => (dec b).bind fun x => (unescape false rest).map (x :: ·)
  | false, b :: rest => if b = escapeFlag then unescape true rest else (unescape false rest).map (b :: ·)

end Sys2Proof.Machine
end

