-- ==== Sys2Proof/Syntax.lean ====
section
/-! DEFINITION. The instructions: one constructor for each row of `spec/opcode_table.json`, and the values they carry. -/

namespace Sys2Proof

/-- A Frame (R40): a 2-bit service and 0 to 63 payload bytes. The bound travels with the value, so an out-of-range Frame
cannot be presented (D11, U3). Equality is structural (R41). -/
structure Frame where
  service : BitVec 2
  payload : List Byte
  bound : payload.length ≤ 63
deriving DecidableEq, Repr

/-- The three command fields of R95: `ck_cmd`, `ser_cmd`, `des_cmd`. -/
inductive CmdPort where
  | ck
  | ser
  | des
deriving DecidableEq, Repr

/-- The rows of the opcode table. The wire rows (`flag` to `lit`), `header` and the wire pairs (`enc55`, `encAA`) are what
arrives on the wire; the others are the operations of R3 and the two remaining command codes of R95. -/
inductive Instr where
  /-- `FLAG`: the raw byte `0x55` (R141). -/
  | flag
  /-- `CODE_55`: the raw byte `0x05` while an escape is pending (R142). -/
  | code55
  /-- `CODE_AA`: the raw byte `0x0A` while an escape is pending (R142). -/
  | codeAA
  /-- `BADCODE`: any other raw byte but `0x55` while an escape is pending (R142). -/
  | badCode (b : Byte)
  /-- `ESC`: the raw byte `0xAA` with no escape pending (R143). -/
  | esc
  /-- `LIT`: any other raw byte but `0x55` with no escape pending (R144). -/
  | lit (b : Byte)
  /-- `HEADER`: the header byte `ssllllll`, the first content byte after a flag (R82). -/
  | header (service : BitVec 2) (length : BitVec 6)
  /-- `ENC_55`: the wire pair `0xAA 0x05` (R86). -/
  | enc55
  /-- `ENC_AA`: the wire pair `0xAA 0x0A` (R86). -/
  | encAA
  /-- `CK.WRITE b` (R111). -/
  | ckWrite (b : Byte)
  /-- `CK.RESET` (R110). -/
  | ckReset
  /-- `CK.VALUE` (R112). -/
  | ckValue
  /-- `SER.NEXT` (R121). -/
  | serNext
  /-- `SER.LOAD f, e` (R120). -/
  | serLoad (f : Frame) (eof : Bool)
  /-- `SER.RESTART` (R130). -/
  | serRestart
  /-- `SER.DONE` (R132). -/
  | serDone
  /-- `DES.PUSH b` (R140). -/
  | desPush (b : Byte)
  /-- `DES.RESET` (R150). -/
  | desReset
  /-- `NOP`: command code `00` on a command field (R95). -/
  | nop (port : CmdPort)
  /-- `RESERVED`: command code `11` on `ck_cmd` or `des_cmd` (R95, U7). -/
  | reserved (port : CmdPort)
deriving DecidableEq, Repr

end Sys2Proof
end

