-- ==== Sys2Proof/WellFormed.lean ====
section
/-! DEFINITION. Which terms of `Instr` stand for something the hardware can be given: the operand ranges of the opcode table's
wire classes (R81) and the ports that have a reserved code (R95). Every other operand range is in the operand's type. -/

namespace Sys2Proof

/-- The operand of `BADCODE` is none of `0x55`, `0x05`, `0x0A`; the operand of `LIT` is neither `0x55` nor `0xAA` (R81); code
`11` on `ser_cmd` is `SER.RESTART`, not `RESERVED` (R95). -/
def Instr.wellFormed : Instr → Bool
  | .badCode b => b != 0x55 && b != 0x05 && b != 0x0A
  | .lit b => b != 0x55 && b != 0xAA
  | .reserved p => p != .ser
  | .flag | .code55 | .codeAA | .esc | .header _ _ | .enc55 | .encAA
  | .ckWrite _ | .ckReset | .ckValue
  | .serNext | .serLoad _ _ | .serRestart | .serDone
  | .desPush _ | .desReset | .nop _ => true

end Sys2Proof
end

