-- ==== Sys2Proof/Decode.lean ====
section
/-! DEFINITION. The decoder and the encoder. A word is what stands on one port in one step: a command field with its operand
ports (R95), a status output that is read, a raw byte on the wire (R81), a header byte (R82) or a wire pair (R86). -/

namespace Sys2Proof

/-- What stands on a port in one step. The field widths are those of R95, so an out-of-range operand cannot be written.
`ckValue` and `serDone` are readings of an output, possible under any command code (the table's pattern `cc`). -/
inductive PortWord where
  | ckCmd (cmd : BitVec 2) (ckByte : Byte)
  | serCmd (cmd : BitVec 2) (ldService : BitVec 2) (ldLen : BitVec 6) (ldPayload : Vector Byte 63) (ldEof : Bool)
  | desCmd (cmd : BitVec 2) (desByte : Byte)
  | ckValue (cmd : BitVec 2)
  | serDone (cmd : BitVec 2)
  | wire (raw : Byte)
  | header (logical : Byte)
  | wirePair (first second : Byte)
deriving DecidableEq, Repr

/-- Why a word has no instruction. -/
inductive Reject where
  /-- Two bytes given as a wire pair that are neither `ENC_55` nor `ENC_AA` (R86). -/
  | notAnEscapePair (first second : Byte)
deriving DecidableEq, Repr

/-- The class of a raw byte, by its value and whether an escape is pending, tested in the order of R81. -/
def classify (escPending : Bool) (b : Byte) : Instr :=
  if b = Machine.leadingFlag then .flag
  else if escPending then
    if b = Machine.escapeCode55 then .code55
    else if b = Machine.escapeCodeAA then .codeAA
    else .badCode b
  else if b = Machine.escapeFlag then .esc
  else .lit b

/-- `ck_cmd` (R95). -/
def decodeCk (cmd : BitVec 2) (ckByte : Byte) : Instr :=
  if cmd = 0b00 then .nop .ck
  else if cmd = 0b01 then .ckWrite ckByte
  else if cmd = 0b10 then .ckReset
  else .reserved .ck

/-- The Frame on the load ports: the entries of `ld_payload` at indexes `>= ld_len` are ignored (R95). -/
def loadedFrame (ldService : BitVec 2) (ldLen : BitVec 6) (ldPayload : Vector Byte 63) : Frame :=
  { service := ldService
    payload := ldPayload.toList.take ldLen.toNat
    bound := by simp only [List.length_take]; omega }

/-- `ser_cmd` (R95). -/
def decodeSer (cmd ldService : BitVec 2) (ldLen : BitVec 6) (ldPayload : Vector Byte 63) (ldEof : Bool) : Instr :=
  if cmd = 0b00 then .nop .ser
  else if cmd = 0b01 then .serNext
  else if cmd = 0b10 then .serLoad (loadedFrame ldService ldLen ldPayload) ldEof
  else .serRestart

/-- `des_cmd` (R95). -/
def decodeDes (cmd : BitVec 2) (desByte : Byte) : Instr :=
  if cmd = 0b00 then .nop .des
  else if cmd = 0b01 then .desPush desByte
  else if cmd = 0b10 then .desReset
  else .reserved .des

/-- A wire pair (R86). -/
def decodePair (first second : Byte) : Except Reject Instr :=
  if first = Machine.escapeFlag ∧ second = Machine.escapeCode55 then .ok .enc55
  else if first = Machine.escapeFlag ∧ second = Machine.escapeCodeAA then .ok .encAA
  else .error (.notAnEscapePair first second)

/-- The decoder, total on every word. `escPending` is `d_esc`, the one bit the receiver's classes depend on (R81, R91). -/
def decode (escPending : Bool) : PortWord → Except Reject Instr
  | .ckCmd cmd b => .ok (decodeCk cmd b)
  | .serCmd cmd sv n p e => .ok (decodeSer cmd sv n p e)
  | .desCmd cmd b => .ok (decodeDes cmd b)
  | .ckValue _ => .ok .ckValue
  | .serDone _ => .ok .serDone
  | .wire b => .ok (classify escPending b)
  | .header h => .ok (.header (Machine.headerService h) (Machine.headerLength h))
  | .wirePair first second => decodePair first second

/-- The receiver condition a wire class stands under, the table's `context` (R98); `none` is `any`. -/
def Instr.escContext : Instr → Option Bool
  | .code55 | .codeAA | .badCode _ => some true
  | .esc | .lit _ => some false
  | .flag | .header _ _ | .enc55 | .encAA
  | .ckWrite _ | .ckReset | .ckValue
  | .serNext | .serLoad _ _ | .serRestart | .serDone
  | .desPush _ | .desReset | .nop _ | .reserved _ => none

/-- The component an instruction acts on, named by its command field (R95). What arrives on the wire goes to the receiver. -/
def Instr.port : Instr → CmdPort
  | .ckWrite _ | .ckReset | .ckValue => .ck
  | .serNext | .serLoad _ _ | .serRestart | .serDone => .ser
  | .flag | .code55 | .codeAA | .badCode _ | .esc | .lit _ | .header _ _ | .enc55 | .encAA
  | .desPush _ | .desReset => .des
  | .nop p | .reserved p => p

/-- The one raw byte an instruction gives to the receiver (R81, R140). -/
def Instr.rawByte : Instr → Option Byte
  | .flag => some 0x55
  | .code55 => some 0x05
  | .codeAA => some 0x0A
  | .esc => some 0xAA
  | .badCode b | .lit b | .desPush b => some b
  | .header _ _ | .enc55 | .encAA
  | .ckWrite _ | .ckReset | .ckValue
  | .serNext | .serLoad _ _ | .serRestart | .serDone
  | .desReset | .nop _ | .reserved _ => none

/-- The content byte an instruction gives to the receiver's body logic when it arrives under the escape condition given: the
byte a raw byte stands for then (R81), or, with no escape pending, the byte whose whole wire form arrives (R82, R86). -/
def Instr.delivers (escPending : Bool) : Instr → Option Byte
  | .header sv n => if escPending then none else some (Machine.pack sv n)
  | .enc55 => if escPending then none else some 0x55
  | .encAA => if escPending then none else some 0xAA
  | i => i.rawByte.bind (Machine.contentByte escPending)

/-- The `ld_payload` port holding a payload. The entries at indexes at or above the length are ignored by the decoder (R95);
the encoder puts `0x00` there (log 14). -/
def payloadPort (p : List Byte) : Vector Byte 63 := Vector.ofFn fun i => p.getD i 0

/-- A `ser_cmd` word with no frame on its load ports, which are ignored (R95; log 14). -/
def serWord (cmd : BitVec 2) : PortWord := .serCmd cmd 0 0 (payloadPort []) false

/-- The encoder: the word of each instruction, from R81, R82, R86 and R95. -/
def encode : Instr → PortWord
  | .flag => .wire 0x55
  | .code55 => .wire 0x05
  | .codeAA => .wire 0x0A
  | .badCode b => .wire b
  | .esc => .wire 0xAA
  | .lit b => .wire b
  | .header sv n => .header (Machine.pack sv n)
  | .enc55 => .wirePair 0xAA 0x05
  | .encAA => .wirePair 0xAA 0x0A
  | .ckWrite b => .ckCmd 0b01 b
  | .ckReset => .ckCmd 0b10 0
  | .ckValue => .ckValue 0b00
  | .serNext => serWord 0b01
  | .serLoad f e => .serCmd 0b10 f.service (BitVec.ofNat 6 f.payload.length) (payloadPort f.payload) e
  | .serRestart => serWord 0b11
  | .serDone => .serDone 0b00
  | .desPush b => .desCmd 0b01 b
  | .desReset => .desCmd 0b10 0
  | .nop .ck => .ckCmd 0b00 0
  | .nop .ser => serWord 0b00
  | .nop .des => .desCmd 0b00 0
  | .reserved .ck => .ckCmd 0b11 0
  | .reserved .ser => serWord 0b11
  | .reserved .des => .desCmd 0b11 0

/-- The word a row's bits stand for, numbered as the opcode table numbers them: 8 bits are a raw byte on the wire; 16 bits are
a wire pair, the byte sent first in bits 15..8 as in the table's own number for `ENC_55` (log 7). -/
def tableWord (nbits w : Nat) : Option PortWord :=
  if nbits = 8 then some (.wire (BitVec.ofNat 8 w))
  else if nbits = 16 then some (.wirePair (BitVec.ofNat 8 (w / 256)) (BitVec.ofNat 8 w))
  else none

/-- The receiver condition under which a row's byte has the meaning its row gives it: the two escape codes are codes only while
an escape is pending, and a flag is one in any condition (R81); any other byte is read as `ESC` or `LIT` (log 7). -/
def tableContext : PortWord → Option Bool
  | .wire b =>
    if b = Machine.leadingFlag then none
    else some (b = Machine.escapeCode55 || b = Machine.escapeCodeAA)
  | _ => none

/-- The instruction the decoder reads from a row's bits (log 7). -/
def decodeTableWord (nbits w : Nat) : Option Instr :=
  match tableWord nbits w with
  | none => none
  | some word =>
    match decode ((tableContext word).getD false) word with
    | .ok i => some i
    | .error _ => none

end Sys2Proof
end

