-- ==== Sys2Proof/Machine/State.lean ====
section
/-! DEFINITION. The state of the block (`10_state.md`), what a step returns, why a step stops, and the state after hardware
reset (R221). -/

namespace Sys2Proof.Machine

/-- An indexed store of bytes, one of the two of R60, as the sequence of its bytes (the abstract view, normative for a model,
D14): positions that hold no byte of the frame are not state. -/
abbrev Buffer := List Byte

/-- A buffer never holds more than its 63 entries (R60). -/
def Memory.wf (buf : Buffer) : Bool := buf.length ≤ 63

/-- `s_phase` (R27): the next logical byte to produce. -/
inductive Phase where
  | sof
  | header
  | payload
  | crc
  | eof
  | ended
deriving DecidableEq, Repr

/-- `s_pend` (R28): no pending code, `0x05`, or `0x0A`. -/
inductive Pend where
  | empty
  | code55
  | codeAA
deriving DecidableEq, Repr

/-- The Frame Serializer's registers (R23 to R29): `s_service`, `s_len`, `s_payload`, `s_eof`, `s_ck`, `s_idx`, `s_phase`,
`s_pend`, `s_fault`. The phase the source calls `END` is `Phase.ended`. -/
structure Serializer where
  service : BitVec 2
  len : BitVec 6
  payload : Buffer
  eof : Bool
  ck : Byte
  idx : BitVec 6
  phase : Phase
  pend : Pend
  fault : Bool
deriving DecidableEq, Repr

/-- `d_state` (R36). -/
inductive RecvState where
  | searchSof
  | readHeader
  | readPayload
  | readCrc
deriving DecidableEq, Repr

/-- The Frame Deserializer's registers (R32 to R36): `d_state`, `d_esc`, `d_ck`, `d_service`, `d_len`, `d_idx`, `d_payload`. -/
structure Deserializer where
  state : RecvState
  esc : Bool
  ck : Byte
  service : BitVec 2
  len : BitVec 6
  idx : BitVec 6
  payload : Buffer
deriving DecidableEq, Repr

/-- What a step returns (R12): `CK.VALUE` a byte, `SER.NEXT` `Byte(b)` or `Fault`, `SER.DONE` a bit, `DES.PUSH` `None` or
`Frame(f)`, every other operation nothing. -/
inductive Result where
  | nothing
  | value (b : Byte)
  | byte (b : Byte)
  | fault
  | done (d : Bool)
  | noFrame
  | frame (f : Frame)
deriving DecidableEq, Repr

/-- One thing the outside world does to the block in one step: put a word on a port, or assert hardware reset (R220). -/
inductive Request where
  | word (w : PortWord)
  | hardwareReset
deriving DecidableEq, Repr

/-- Why the machine stops. -/
inductive Fault where
  /-- A payload buffer read or written at an index that is not below the announced length, or past the bytes stored so far.
  Raised by the PAYLOAD arm of `SER.NEXT` and by `DES.PUSH` in `ReadPayload` and `ReadCrc` in states no run reaches (R31, R38,
  R64: "should fault on an out-of-range index rather than return a value"). Safe. -/
  | bufferIndexOutOfRange
deriving DecidableEq, Repr

/-- Why an instruction has no meaning. -/
inductive Refusal where
  /-- An arm of `exec` that has no meaning yet. Raised by no arm of this model. Safe. -/
  | notModelled (mnemonic : String)
  /-- `RESERVED`: command code `11` on a command field that gives it no operation (R95, U7: "refuse"). Safe. -/
  | reservedCommand (port : CmdPort)
  /-- A word the decoder rejects, raised by `step`. Safe. -/
  | undecodable (why : Reject)
deriving DecidableEq, Repr

/-- The state of one block (R20): `ck` is the standalone accumulator's register (R21); `ser` and `des` are the two sequencers.
`result` and `inputs` are the model's own: what the last step returned on the output ports (log 3), and the owner's requests,
in the order they are issued (R68; log 2). -/
structure State where
  ck : Byte
  ser : Serializer
  des : Deserializer
  result : Result
  inputs : List Request
deriving DecidableEq, Repr

/-- The serializer after hardware reset (R30). -/
def Serializer.reset (c : Checksum) : Serializer where
  service := 0
  len := 0
  payload := []
  eof := false
  ck := c.init
  idx := 0
  phase := .ended
  pend := .empty
  fault := false

/-- The deserializer after hardware reset (R37). -/
def Deserializer.reset (c : Checksum) : Deserializer where
  state := .searchSof
  esc := false
  ck := c.init
  service := 0
  len := 0
  idx := 0
  payload := []

/-- The block after hardware reset (R221), with nothing returned and nothing requested (log 2, log 3). -/
def State.reset : State where
  ck := Config.checksum.init
  ser := Serializer.reset Config.checksum
  des := Deserializer.reset Config.checksum
  result := .nothing
  inputs := []

end Sys2Proof.Machine
end

