-- ==== Sys2Proof/Machine/Ops.lean ====
section
/-! DEFINITION. The operations every meaning is written from: buffer reads and writes (R60, R64), the accumulator (R110 to
R113), the raising of a condition and the recovery from it (R197, R198), and how a step takes its request. -/

namespace Sys2Proof.Machine

/-- The outcome of an instruction. -/
abbrev Out := Host.Outcome State Fault Refusal

/-! ### Buffers -/

/-- `MemRead(buf, i)` (R11) of a buffer that holds `len` bytes of a Frame: `none` when `i` is not below `len`, or names a
position that was never written (R31 item 1, R64, U4). -/
def memRead (buf : Buffer) (len i : BitVec 6) : Option Byte :=
  if i < len then buf[i.toNat]? else none

/-- `MemWrite(buf, i, v)` (R11) into a buffer announced as `len` bytes: the sequence of the bytes stored so far grows by one at
index `i`; entries past `i` are not state (R32). `none` when `i` is not below `len` (R38 item 4) or would leave a gap. -/
def memWrite (buf : Buffer) (len i : BitVec 6) (v : Byte) : Option Buffer :=
  if i < len ∧ i.toNat ≤ buf.length then some (buf.take i.toNat ++ [v]) else none

/-! ### The accumulator -/

/-- `CK.RESET` on any accumulator register (R110). -/
abbrev ckReset (c : Checksum) : Byte := c.init

/-- `CK.WRITE b` on an accumulator register holding `v` (R111). -/
abbrev ckWrite (c : Checksum) (v b : Byte) : Byte := c.step v b

/-- `CK(B)` (R113): the left fold of `CK_STEP` from `CK_INIT`. -/
def ckOf (c : Checksum) (B : List Byte) : Byte := B.foldl (ckWrite c) (ckReset c)

/-! ### Raising a condition, and recovery -/

/-- Entry of `SerializerOverrun` (R128, R197): `s_fault <- 1`, everything else kept. -/
def Serializer.raiseOverrun (z : Serializer) : Serializer := { z with fault := true }

/-- The start of a serialization of the held Frame, the only way out of `SerializerOverrun` (R120, R130, R198): phase `SOF`,
index 0, no pending code, the accumulator reset (D23), the fault bit cleared. -/
def Serializer.begin (c : Checksum) (z : Serializer) : Serializer :=
  { z with phase := .sof, idx := 0, pend := .empty, ck := ckReset c, fault := false }

/-- `ResetAll` (R149): every register of the deserializer to its reset value. It is the entry of `EscapeViolation` and of
`ChecksumFailure` (R193, R194, R197), after which nothing is left to return from (R198). -/
def Deserializer.resetAll (c : Checksum) (d : Deserializer) : Deserializer :=
  { d with state := .searchSof, esc := false, ck := ckReset c, service := 0, len := 0, idx := 0, payload := [] }

/-! ### Writing back what an operation did -/

/-- An operation on the accumulator: the new `ck` and what it returns. -/
def State.putCk (s : State) (v : Byte) (r : Result) : State := { s with ck := v, result := r }

/-- An operation on the serializer. -/
def State.putSer (s : State) (z : Serializer) (r : Result) : State := { s with ser := z, result := r }

/-- An operation on the deserializer. -/
def State.putDes (s : State) (d : Deserializer) (r : Result) : State := { s with des := d, result := r }

/-- An operation that changes no register. -/
def State.report (s : State) (r : Result) : State := { s with result := r }

/-! ### A step's request -/

/-- The next request of the owner, and the state with it taken off (R68; log 2). -/
def fetch (s : State) : Option (Request × State) :=
  match s.inputs with
  | [] => none
  | q :: rest => some (q, { s with inputs := rest })

/-- A step in which the owner issues nothing: the state is held and nothing is returned (R201, R241). -/
def idle (s : State) : State := s.report .nothing

/-- Hardware reset: every component into its reset state at once (R220, R221). The requests still to come stay (log 12). -/
def hardwareReset (s : State) : State := { State.reset with inputs := s.inputs }

end Sys2Proof.Machine
end

