-- ==== Sys2Proof/Machine/Command.lean ====
section
/-! DEFINITION. The two command codes that name no operation of a component (R95). -/

namespace Sys2Proof.Machine

/-- `NOP`, code `00` (R95): the state is held, nothing is returned. -/
def execNop (_port : CmdPort) (s : State) : Out := .next (s.report .nothing)

/-- `RESERVED`, code `11` on `ck_cmd` or `des_cmd` (R95, U7): "no meaning; a model refuses it". -/
def execReserved (port : CmdPort) (_s : State) : Out := .refused (.reservedCommand port)

end Sys2Proof.Machine
end

