-- ==== Sys2Proof/Machine/Flags.lean ====
section
/-! DEFINITION. The status the block shows. It has no arithmetic flags: its status bits are `s_fault`, `d_esc` and the valid bit
of `s_pend`, which are registers, the derived `s_done` (R29), and the output ports of R95. -/

namespace Sys2Proof.Machine

/-- `s_done` (R29, R132): phase `END` and no pending code. -/
def Serializer.isDone (z : Serializer) : Bool := z.phase == .ended && z.pend == .empty

/-- The validity test of the receiver (R148, R157): the folded value is `VALID_RESIDUE`. -/
def residueValid (v : Byte) : Bool := v == validResidue

/-- `ck_value` (R95): shows `ck` in every step. -/
def State.ckValue (s : State) : Byte := s.ck

/-- `ser_done` (R95): shows `s_done` in every step. -/
def State.serDone (s : State) : Bool := s.ser.isDone

/-- `ser_fault` (R95): shows `s_fault` in every step. -/
def State.serFault (s : State) : Bool := s.ser.fault

/-- `ser_byte_valid` and `ser_byte` (R95): the byte of a `SER.NEXT` that returned one. -/
def State.serByte (s : State) : Option Byte :=
  match s.result with
  | .byte b => some b
  | .nothing | .value _ | .fault | .done _ | .noFrame | .frame _ => none

/-- `frame_valid`, `frame_service`, `frame_len` and `frame_payload` (R95, R154): the Frame the step yielded. -/
def State.frameOut (s : State) : Option Frame :=
  match s.result with
  | .frame f => some f
  | .nothing | .value _ | .byte _ | .fault | .done _ | .noFrame => none

end Sys2Proof.Machine
end

