-- ==== Sys2Proof/Machine/Checksum.lean ====
section
/-! DEFINITION. The Checksum Accumulator's operations (`40_checksum.md`) and the reference instance of the open parameter. -/

namespace Sys2Proof.Machine

/-- `CK.RESET` (R110): `ck <- CK_INIT`; returns nothing. -/
def execCkReset (s : State) : Out := .next (s.putCk (ckReset Config.checksum) .nothing)

/-- `CK.WRITE b` (R111): `ck <- CK_STEP(ck, b)`; returns nothing. -/
def execCkWrite (b : Byte) (s : State) : Out := .next (s.putCk (ckWrite Config.checksum s.ck b) .nothing)

/-- `CK.VALUE` (R112): returns `ck`; writes no register. -/
def execCkValue (s : State) : Out := .next (s.report (.value s.ckValue))

/-- One of the eight shifts of `CK_REF` (R116). -/
def crcShift (x : Byte) : Byte := if x.getMsbD 0 then (x <<< 1) ^^^ 0x07 else x <<< 1

/-- `CK_STEP` of `CK_REF` (R116): CRC-8, polynomial `0x07`. -/
def crcStep (v b : Byte) : Byte := Nat.iterate crcShift 8 (v ^^^ b)

/-- `CK_INJ_BYTE` (R115): an optional property, assumed by no rule. -/
def InjByte (c : Checksum) : Prop := ∀ v b b', c.step v b = c.step v b' → b = b'

/-- `CK_INJ_ACC` (R115): an optional property, assumed by no rule. -/
def InjAcc (c : Checksum) : Prop := ∀ v v' b, c.step v b = c.step v' b → v = v'

/-- `CK_REF` (R116), the spec's choice for test vectors, claimed of no hardware (R9). No machine of this package uses it; the
tests give it to the same definitions `exec` uses at `Config.checksum`. -/
def refChecksum : Checksum where
  init := 0
  step := crcStep
  residue B := by
    rw [crcStep, BitVec.xor_self]
    decide

end Sys2Proof.Machine
end

