-- ==== Sys2Proof/Machine/Serializer.lean ====
section
/-! DEFINITION. The Frame Serializer's operations (`41_serializer.md`). Each is written once over any checksum; `exec` runs it
at `Config.checksum`. -/

namespace Sys2Proof.Machine

/-- The result of `SER.NEXT` (R121): `Byte(b)` or `Fault`. -/
inductive Pull where
  | byte (b : Byte)
  | fault
deriving DecidableEq, Repr

/-- The result of the step, as R12 lists it. -/
def Pull.result : Pull → Result
  | .byte b => .byte b
  | .fault => .fault

/-- The byte a pending code stands for (R28): `none` when no code is pending. -/
def Pend.code : Pend → Option Byte
  | .empty => none
  | .code55 => some escapeCode55
  | .codeAA => some escapeCodeAA

/-- The code left pending by `Emit(b)` (R129). -/
def emitPend (b : Byte) : Pend :=
  if b = leadingFlag then .code55 else if b = escapeFlag then .codeAA else .empty

/-- The wire byte `Emit(b)` returns (R129). -/
def emitByte (b : Byte) : Byte := if b = leadingFlag ∨ b = escapeFlag then escapeFlag else b

/-- `Emit(b)` (R129): send a content byte with escaping. It is called with no code pending, so the "stays NONE" of its last
line is the `Pend.empty` that `emitPend` gives. -/
def emit (b : Byte) (z : Serializer) : Serializer × Pull := ({ z with pend := emitPend b }, .byte (emitByte b))

/-- The header of the held Frame (R124). -/
def Serializer.headerByte (z : Serializer) : Byte := pack z.service z.len

/-- `SER.LOAD f, e` (R120). -/
def Serializer.load (c : Checksum) (f : Frame) (e : Bool) (z : Serializer) : Serializer :=
  { z with service := f.service, len := BitVec.ofNat 6 f.payload.length, payload := f.payload, eof := e }.begin c

/-- `SER.RESTART` (R130). -/
def Serializer.restart (c : Checksum) (z : Serializer) : Serializer := z.begin c

/-- Arm PENDING (R122), with the code that is pending. -/
def Serializer.nextPending (code : Byte) (z : Serializer) : Serializer × Pull :=
  ({ z with pend := .empty }, .byte code)

/-- Arm SOF (R123). -/
def Serializer.nextSof (z : Serializer) : Serializer × Pull := ({ z with phase := .header }, .byte leadingFlag)

/-- Arm HEADER (R124). -/
def Serializer.nextHeader (c : Checksum) (z : Serializer) : Serializer × Pull :=
  emit z.headerByte
    { z with ck := ckWrite c z.ck z.headerByte, phase := if z.len = 0 then .crc else .payload }

/-- Arm PAYLOAD (R125), with the byte read. -/
def Serializer.nextPayload (c : Checksum) (b : Byte) (z : Serializer) : Serializer × Pull :=
  emit b
    { z with
      ck := ckWrite c z.ck b
      idx := z.idx + 1
      phase := if z.idx + 1 = z.len then .crc else .payload }

/-- Arm CRC (R126): the accumulator's value is sent and not folded (D5). -/
def Serializer.nextCrc (z : Serializer) : Serializer × Pull :=
  emit z.ck { z with phase := if z.eof then .eof else .ended }

/-- Arm EOF (R127). -/
def Serializer.nextEof (z : Serializer) : Serializer × Pull := ({ z with phase := .ended }, .byte leadingFlag)

/-- Arm END (R128): `SerializerOverrun`. -/
def Serializer.nextEnd (z : Serializer) : Serializer × Pull := (z.raiseOverrun, .fault)

/-- `SER.NEXT` (R121): the pending code first, else the arm of the phase. `none` only when arm PAYLOAD would read out of range
(R64). -/
def Serializer.next (c : Checksum) (z : Serializer) : Option (Serializer × Pull) :=
  match z.pend.code with
  | some code => some (z.nextPending code)
  | none =>
    match z.phase with
    | .sof => some z.nextSof
    | .header => some (z.nextHeader c)
    | .payload => (memRead z.payload z.len z.idx).map fun b => z.nextPayload c b
    | .crc => some z.nextCrc
    | .eof => some z.nextEof
    | .ended => some z.nextEnd

/-- `SER.LOAD f, e` (R120): returns nothing. -/
def execSerLoad (f : Frame) (e : Bool) (s : State) : Out :=
  .next (s.putSer (s.ser.load Config.checksum f e) .nothing)

/-- `SER.NEXT` (R121): returns `Byte(b)`, or `Fault` from arm END, which is a next state with `s_fault` set (R197; log 9). -/
def execSerNext (s : State) : Out :=
  match s.ser.next Config.checksum with
  | some (z, p) => .next (s.putSer z p.result)
  | none => .fault .bufferIndexOutOfRange

/-- `SER.RESTART` (R130): returns nothing. -/
def execSerRestart (s : State) : Out := .next (s.putSer (s.ser.restart Config.checksum) .nothing)

/-- `SER.DONE` (R132): returns `s_done`; writes no register. -/
def execSerDone (s : State) : Out := .next (s.report (.done s.serDone))

end Sys2Proof.Machine
end

