-- ==== Sys2Proof/Machine/Deserializer.lean ====
section
/-! DEFINITION. The Frame Deserializer's operations (`42_deserializer.md`). Each is written once over any checksum; `exec` runs
it at `Config.checksum`. -/

namespace Sys2Proof.Machine

/-- What the receiver does with a byte: its state after the step, and `None` or the Frame it yields (R140). `none` only when a
buffer would be accessed out of range (R64). -/
abbrev Recv := Option (Deserializer × Option Frame)

/-- The result of the step, as R12 lists it. -/
def yieldResult : Option Frame → Result
  | none => .noFrame
  | some f => .frame f

/-- `Frame(d_service, [MemRead(d_payload, 0), ..., MemRead(d_payload, d_len - 1)])` (R148): `none` when a position below
`d_len` was never written. -/
def Deserializer.heldFrame (d : Deserializer) : Option Frame :=
  if d.len.toNat ≤ d.payload.length then
    some { service := d.service
           payload := d.payload.take d.len.toNat
           bound := by simp only [List.length_take]; omega }
  else none

/-- Body in `ReadHeader` (R146). -/
def Deserializer.bodyHeader (c : Checksum) (x : Byte) (d : Deserializer) : Deserializer :=
  { d with
    len := headerLength x
    service := headerService x
    idx := 0
    payload := []
    ck := ckWrite c d.ck x
    state := if headerLength x > 0 then .readPayload else .readCrc }

/-- Body in `ReadPayload` (R147), with the buffer after the store. -/
def Deserializer.bodyPayload (c : Checksum) (x : Byte) (stored : Buffer) (d : Deserializer) : Deserializer :=
  { d with
    payload := stored
    ck := ckWrite c d.ck x
    idx := d.idx + 1
    state := if d.idx + 1 = d.len then .readCrc else .readPayload }

/-- Body in `ReadCrc` (R148): a residue that is not valid is `ChecksumFailure` (R193), dropped in silence. -/
def Deserializer.bodyCrc (c : Checksum) (x : Byte) (d : Deserializer) : Recv :=
  if residueValid (ckWrite c d.ck x) then d.heldFrame.map fun f => (d.resetAll c, some f)
  else some (d.resetAll c, none)

/-- The body logic, by `d_state` (R145 to R148), for one unescaped content byte. -/
def Deserializer.body (c : Checksum) (x : Byte) (d : Deserializer) : Recv :=
  match d.state with
  | .searchSof => some (d, none)
  | .readHeader => some (d.bodyHeader c x, none)
  | .readPayload => (memWrite d.payload d.len d.idx x).map fun stored => (d.bodyPayload c x stored, none)
  | .readCrc => d.bodyCrc c x

/-- Step 1, FLAG (R141): the frame in progress is dropped and a header is awaited. -/
def Deserializer.takeFlag (c : Checksum) (d : Deserializer) : Deserializer :=
  { d.resetAll c with state := .readHeader }

/-- The escape bit cleared, as step 2 leaves it whatever the code (R35, R142; D12). -/
def Deserializer.clearEsc (d : Deserializer) : Deserializer := { d with esc := false }

/-- Step 2, ESCAPE CODE (R142): a code that stands for no byte is `EscapeViolation` (R194). -/
def Deserializer.takeCode (c : Checksum) (b : Byte) (d : Deserializer) : Recv :=
  match dec b with
  | some x => d.clearEsc.body c x
  | none => some (d.resetAll c, none)

/-- Step 3, ESCAPE FLAG (R143). -/
def Deserializer.takeEscape (d : Deserializer) : Deserializer := { d with esc := true }

/-- `DES.PUSH b` (R140): the first of the four steps whose condition holds. -/
def Deserializer.push (c : Checksum) (b : Byte) (d : Deserializer) : Recv :=
  if b = leadingFlag then some (d.takeFlag c, none)
  else if d.esc then d.takeCode c b
  else if b = escapeFlag then some (d.takeEscape, none)
  else d.body c b

/-- Raw bytes pushed one after the other (`FEED`, R97): the state after the last and the Frames yielded, in order. -/
def Deserializer.feed (c : Checksum) : List Byte → Deserializer → Option (Deserializer × List Frame)
  | [], d => some (d, [])
  | b :: rest, d =>
    match d.push c b with
    | none => none
    | some (d', y) => (d'.feed c rest).map fun (d'', ys) => (d'', y.toList ++ ys)

/-- The event labels of R153, for claims; not ports and not state. -/
inductive Label where
  | start
  | resync
  | escViolation
  | crcFail
  | frameOk
  | quiet
deriving DecidableEq, Repr

/-- The label of a content byte given to the body logic (R153). -/
def Deserializer.bodyLabel (c : Checksum) (x : Byte) (d : Deserializer) : Label :=
  if d.state = .readCrc then (if residueValid (ckWrite c d.ck x) then .frameOk else .crcFail) else .quiet

/-- The label of `DES.PUSH b` (R153). -/
def Deserializer.label (c : Checksum) (b : Byte) (d : Deserializer) : Label :=
  if b = leadingFlag then
    match d.state with
    | .searchSof => .start
    | .readHeader => if d.esc then .resync else .start
    | .readPayload | .readCrc => .resync
  else if d.esc then
    match dec b with
    | some x => d.bodyLabel c x
    | none => .escViolation
  else if b = escapeFlag then .quiet
  else d.bodyLabel c b

/-- A raw byte arrives at the receiver. -/
def receive (b : Byte) (s : State) : Out :=
  match s.des.push Config.checksum b with
  | some (d, y) => .next (s.putDes d (yieldResult y))
  | none => .fault .bufferIndexOutOfRange

/-- `DES.PUSH b` (R140): returns `None` or the Frame. -/
def execDesPush (b : Byte) (s : State) : Out := receive b s

/-- `DES.RESET` (R150): `ResetAll`; returns nothing. -/
def execDesReset (s : State) : Out := .next (s.putDes (s.des.resetAll Config.checksum) .nothing)

end Sys2Proof.Machine
end

