-- ==== Sys2Proof/Machine/Wire.lean ====
section
/-! DEFINITION. The rows of the opcode table that are wire forms (R81, R82, R86): what the receiver does when they arrive. A raw
byte means what R140 makes of its value, so a class met outside the table's context is read as its value then is (log 5). -/

namespace Sys2Proof.Machine

/-- Raw bytes arriving one after the other, each an atomic step of the receiver (R12). The result is that of the last. -/
def receiveAll : List Byte → State → Out
  | [], s => .next s
  | b :: rest, s =>
    match receive b s with
    | .next s' => receiveAll rest s'
    | .fault r => .fault r
    | .refused r => .refused r

/-- `FLAG`: the raw byte `0x55` (R141). -/
def execFlag (s : State) : Out := receive leadingFlag s

/-- `CODE_55`: the raw byte `0x05` (R142). -/
def execCode55 (s : State) : Out := receive escapeCode55 s

/-- `CODE_AA`: the raw byte `0x0A` (R142). -/
def execCodeAA (s : State) : Out := receive escapeCodeAA s

/-- `BADCODE`: a raw byte that is no escape code (R142, R194). -/
def execBadCode (b : Byte) (s : State) : Out := receive b s

/-- `ESC`: the raw byte `0xAA` (R143). -/
def execEsc (s : State) : Out := receive escapeFlag s

/-- `LIT`: a raw byte that stands for itself (R144). -/
def execLit (b : Byte) (s : State) : Out := receive b s

/-- `HEADER`: the wire form of the header byte (R82, R83, R86; R146 in `ReadHeader`). The sender's half is arm HEADER of
`SER.NEXT` (log 6). -/
def execHeader (service : BitVec 2) (length : BitVec 6) (s : State) : Out := receiveAll (enc (pack service length)) s

/-- `ENC_55`: the pair `0xAA 0x05` (R85, R86). The sender's half is `emit` (log 6). -/
def execEnc55 (s : State) : Out := receiveAll [escapeFlag, escapeCode55] s

/-- `ENC_AA`: the pair `0xAA 0x0A` (R85, R86). The sender's half is `emit` (log 6). -/
def execEncAA (s : State) : Out := receiveAll [escapeFlag, escapeCodeAA] s

end Sys2Proof.Machine
end

