-- ==== Sys2Proof/Machine/Dispatch.lean ====
section
/-! DEFINITION. One arm for each constructor of `Instr`. -/

namespace Sys2Proof.Machine

-- What an instruction does: one direct call of its meaning.
def exec (i : Instr) (s : State) : Host.Outcome State Fault Refusal :=
  match i with
  | .flag => Sys2Proof.Machine.execFlag s
  | .code55 => Sys2Proof.Machine.execCode55 s
  | .codeAA => Sys2Proof.Machine.execCodeAA s
  | .badCode b => Sys2Proof.Machine.execBadCode b s
  | .esc => Sys2Proof.Machine.execEsc s
  | .lit b => Sys2Proof.Machine.execLit b s
  | .header service length => Sys2Proof.Machine.execHeader service length s
  | .enc55 => Sys2Proof.Machine.execEnc55 s
  | .encAA => Sys2Proof.Machine.execEncAA s
  | .ckWrite b => Sys2Proof.Machine.execCkWrite b s
  | .ckReset => Sys2Proof.Machine.execCkReset s
  | .ckValue => Sys2Proof.Machine.execCkValue s
  | .serNext => Sys2Proof.Machine.execSerNext s
  | .serLoad f eof => Sys2Proof.Machine.execSerLoad f eof s
  | .serRestart => Sys2Proof.Machine.execSerRestart s
  | .serDone => Sys2Proof.Machine.execSerDone s
  | .desPush b => Sys2Proof.Machine.execDesPush b s
  | .desReset => Sys2Proof.Machine.execDesReset s
  | .nop port => Sys2Proof.Machine.execNop port s
  | .reserved port => Sys2Proof.Machine.execReserved port s

end Sys2Proof.Machine
end

