-- ==== Sys2Proof/Machine/Step.lean ====
section
/-! DEFINITION. One step of the block: take the owner's next request and do it. -/

namespace Sys2Proof.Machine

/-- One step (R12, R241; log 2). With no request the block is idle; hardware reset acts on everything; a word is decoded under
the receiver's escape bit and its instruction executed. -/
def step (s : State) : Host.Outcome State Fault Refusal :=
  match fetch s with
  | none => .next (idle s)
  | some (.hardwareReset, s') => .next (hardwareReset s')
  | some (.word w, s') =>
    match decode s'.des.esc w with
    | .ok i => exec i s'
    | .error r => .refused (.undecodable r)

/-- `s` with a row's bits as its next request. Where the row's byte has its meaning only under one receiver condition (R81),
`d_esc` is set to that condition, as the raw byte before it would have left it (log 8). -/
def State.withFetchWord (s : State) (nbits w : Nat) : State :=
  match tableWord nbits w with
  | none => s
  | some word =>
    { s with
      des := { s.des with esc := (tableContext word).getD s.des.esc }
      inputs := .word word :: s.inputs }

end Sys2Proof.Machine
end

