-- ==== Sys2Proof/Machine/Instances.lean ====
section
/-! DEFINITION. Several blocks side by side (R20, R202): each has its own state, none shares any, and a step is one block's. -/

namespace Sys2Proof.Machine

/-- Blocks that exist side by side, told apart only by their place (R202: "they have no identifiers"; log 4). -/
abbrev System := List State

/-- Every block starts in its reset state (R202, R220). -/
def System.reset (n : Nat) : System := List.replicate n State.reset

/-- The owner of block `k` issues its next request (R68, R241). -/
def System.step (sys : System) (k : Fin sys.length) : Host.Outcome System Fault Refusal :=
  match Machine.step sys[k] with
  | .next s => .next (sys.set k s)
  | .fault r => .fault r
  | .refused r => .refused r

end Sys2Proof.Machine
end

