-- ==== Sys2Proof/Machine/Link.lean ====
section
/-! DEFINITION. The wire form of a Frame (R89) and the pseudo-operations of R97, each a sequence of real operations. -/

namespace Sys2Proof.Machine

/-- The header byte of a Frame: `pack(service, |payload|)` (R83, R89). -/
def frameHeader (f : Frame) : Byte := pack f.service (BitVec.ofNat 6 f.payload.length)

/-- The checksum byte of a Frame: `CK([header] ++ payload)` (R89). -/
def frameChecksum (c : Checksum) (f : Frame) : Byte := ckOf c (frameHeader f :: f.payload)

/-- The content bytes of a Frame, in wire order: header, payload, checksum (R80). -/
def frameContent (c : Checksum) (f : Frame) : List Byte := frameHeader f :: (f.payload ++ [frameChecksum c f])

/-- `wire(f, e)` (R89). -/
def wireOf (c : Checksum) (f : Frame) (e : Bool) : List Byte :=
  leadingFlag :: ((frameContent c f).flatMap enc ++ if e then [leadingFlag] else [])

/-- Operations done one after the other (R68): the last state and what each returned, in order; a fault or a refusal stops. -/
def runAll : List Instr → State → Host.Outcome (State × List Result) Fault Refusal
  | [], s => .next (s, [])
  | i :: rest, s =>
    match exec i s with
    | .fault r => .fault r
    | .refused r => .refused r
    | .next s' =>
      match runAll rest s' with
      | .fault r => .fault r
      | .refused r => .refused r
      | .next (t, rs) => .next (t, s'.result :: rs)

/-- The Frames among results. -/
def framesOf (rs : List Result) : List Frame :=
  rs.filterMap fun
    | .frame f => some f
    | .nothing | .value _ | .byte _ | .fault | .done _ | .noFrame => none

/-- The wire bytes among results. -/
def bytesOf (rs : List Result) : List Byte :=
  rs.filterMap fun
    | .byte b => some b
    | .nothing | .value _ | .fault | .done _ | .noFrame | .frame _ => none

/-- `FEED [b0, b1, ...] -> F` (R97). -/
def feed (W : List Byte) (s : State) : Host.Outcome (State × List Frame) Fault Refusal :=
  match runAll (W.map Instr.desPush) s with
  | .next (t, rs) => .next (t, framesOf rs)
  | .fault r => .fault r
  | .refused r => .refused r

/-- `SER.NEXT` repeated while `SER.DONE` returns 0 (R97), at most `n` times. -/
def drain : Nat → State → Host.Outcome (State × List Byte) Fault Refusal
  | 0, s => .next (s, [])
  | n + 1, s =>
    if s.serDone then .next (s, [])
    else
      match exec .serNext s with
      | .fault r => .fault r
      | .refused r => .refused r
      | .next s' =>
        match drain n s' with
        | .fault r => .fault r
        | .refused r => .refused r
        | .next (t, W) => .next (t, bytesOf [s'.result] ++ W)

/-- `SERIALIZE f, e -> W` (R97). No Frame is longer than 131 wire bytes (R90). -/
def serialize (f : Frame) (e : Bool) (s : State) : Host.Outcome (State × List Byte) Fault Refusal :=
  match exec (.serLoad f e) s with
  | .next s' => drain 131 s'
  | .fault r => .fault r
  | .refused r => .refused r

/-- `CKSUM [b0, b1, ...] -> v` (R97) is this sequence of operations, the last of which returns `v`. -/
def cksumOps (B : List Byte) : List Instr := .ckReset :: (B.map Instr.ckWrite ++ [.ckValue])

/-- `LOOPBACK f, e -> F` (R97): the serialized bytes fed to the receiver over a perfect channel. -/
def loopback (f : Frame) (e : Bool) (s : State) : Host.Outcome (State × List Frame) Fault Refusal :=
  match serialize f e s with
  | .next (t, W) => feed W t
  | .fault r => .fault r
  | .refused r => .refused r

end Sys2Proof.Machine
end

