-- ==== Sys2Proof/Safety.lean ====
section
/-! DEFINITION. The invariants of `10_state.md` (R31, R38), and what counts as a good run (R192, R242). -/

namespace Sys2Proof.Machine

/-- The serializer has sent the whole of the held Frame up to its checksum (R31 item 6). -/
def Serializer.Complete (c : Checksum) (z : Serializer) : Prop :=
  z.idx = z.len ∧ z.ck = ckOf c (z.headerByte :: z.payload)

/-- No Frame was loaded or restarted since the last hardware reset: the reset state, but for the fault bit (R30, R31 item 6). -/
def Serializer.Unused (c : Checksum) (z : Serializer) : Prop := { z with fault := false } = Serializer.reset c

/-- The serializer's invariants (R31), with the checksum of the part already folded that item 6 needs to be inductive. -/
structure Serializer.Inv (c : Checksum) (z : Serializer) : Prop where
  payload_length : z.payload.length = z.len.toNat
  idx_le_len : z.idx ≤ z.len
  payload_idx : z.phase = .payload → z.idx < z.len
  start : z.phase = .sof ∨ z.phase = .header → z.idx = 0 ∧ z.ck = c.init ∧ z.pend = .empty
  pend_phase : z.pend ≠ .empty → z.phase ≠ .sof ∧ z.phase ≠ .header
  fault_done : z.fault = true → z.phase = .ended ∧ z.pend = .empty
  folded : z.phase = .payload → z.ck = ckOf c (z.headerByte :: z.payload.take z.idx.toNat)
  sent : z.phase = .crc ∨ z.phase = .eof → z.Complete c
  eof_wanted : z.phase = .eof → z.eof = true
  ended : z.phase = .ended → z.Complete c ∨ z.Unused c

/-- The deserializer's invariants (R38). -/
structure Deserializer.Inv (c : Checksum) (d : Deserializer) : Prop where
  idle : d.state = .searchSof ∨ d.state = .readHeader →
    d.ck = c.init ∧ d.service = 0 ∧ d.len = 0 ∧ d.idx = 0 ∧ d.payload = []
  readPayload : d.state = .readPayload →
    d.idx < d.len ∧ d.payload.length = d.idx.toNat ∧ d.ck = ckOf c (pack d.service d.len :: d.payload)
  readCrc : d.state = .readCrc →
    d.idx = d.len ∧ d.payload.length = d.idx.toNat ∧ d.ck = ckOf c (pack d.service d.len :: d.payload)

/-- The invariant of the block: R31 of its serializer and R38 of its deserializer. -/
structure State.Inv (s : State) : Prop where
  ser : s.ser.Inv Config.checksum
  des : s.des.Inv Config.checksum

/-- The step returned `Fault`: the run has gone wrong (R192, R128). -/
def State.overrun (s : State) : Bool := s.result == .fault

/-- A run of `n` steps that stops nowhere and in which no `SER.NEXT` returned `Fault` (R192, R242). -/
def GoodRun : Nat → State → Prop
  | 0, _ => True
  | n + 1, s => ∃ s', step s = .next s' ∧ s'.overrun = false ∧ GoodRun n s'

end Sys2Proof.Machine
end

