-- ==== Sys2Proof/Certificates/Slice0/Obligations.lean ====
section
/-! DEFINITION. The statements for the provers, one for each of the spec's rules they formalise or follow from. -/

open Sys2Proof Sys2Proof.Machine

/-! ### Reset and the step -/

/-- R30: the serializer after hardware reset, finished with nothing to send; a `SER.NEXT` before any `SER.LOAD` is the caller's
misuse; the freshly constructed state is the one after `SER.LOAD`. -/
def Obligations.SerializerHardwareReset : Prop :=
  State.reset.ser =
    { service := 0, len := 0, payload := [], eof := false, ck := Config.checksum.init, idx := 0, phase := .ended,
      pend := .empty, fault := false } ∧
  State.reset.serDone = true ∧
  exec .serNext State.reset =
    .next { State.reset with ser := { State.reset.ser with fault := true }, result := .fault } ∧
  ∀ f e, exec (.serLoad f e) State.reset =
    .next { State.reset with
      ser :=
        { service := f.service, len := BitVec.ofNat 6 f.payload.length, payload := f.payload, eof := e,
          ck := Config.checksum.init, idx := 0, phase := .sof, pend := .empty, fault := false }
      result := .nothing }

/-- R37, R150: the deserializer after hardware reset, and `DES.RESET`, command code `10`, from any state gives the same registers,
twice as once, and yields nothing. -/
def Obligations.DeserializerHardwareReset : Prop :=
  State.reset.des =
    { state := .searchSof, esc := false, ck := Config.checksum.init, service := 0, len := 0, idx := 0, payload := [] } ∧
  (∀ s, exec .desReset s = .next { s with des := State.reset.des, result := .nothing }) ∧
  (∀ s t, exec .desReset s = .next t → exec .desReset t = .next t) ∧
  ∀ esc b, decode esc (.desCmd 0b10 b) = .ok .desReset

/-- R220, R221, R241: what a step does with the owner's next request: a word is decoded under the receiver's escape bit and its
instruction executed on the state with the request taken off; a word with no instruction is refused; hardware reset puts every
component into its reset state; with no request the state is held. That the requests still to come stay, and that a step returns
nothing when nothing is requested, are the model's choices (log 2, log 3, log 12). -/
def Obligations.StepRunsTheDecodedInstruction : Prop :=
  (∀ s w rest i, s.inputs = .word w :: rest → decode s.des.esc w = .ok i →
    step s = exec i { s with inputs := rest }) ∧
  (∀ s w rest r, s.inputs = .word w :: rest → decode s.des.esc w = .error r →
    step s = .refused (.undecodable r)) ∧
  (∀ s rest, s.inputs = .hardwareReset :: rest → step s = .next { State.reset with inputs := rest }) ∧
  (∀ s, s.inputs = [] → step s = .next { s with result := .nothing })

/-! ### Encoding -/

/-- R81, R82, R86, R95: words written out from the spec's encodings decode to the instructions they stand for. -/
def Obligations.WrittenWordsDecode : Prop :=
  decode false (.wire 0b01010101) = .ok .flag ∧ decode true (.wire 0b01010101) = .ok .flag ∧
  decode true (.wire 0b00000101) = .ok .code55 ∧ decode true (.wire 0b00001010) = .ok .codeAA ∧
  decode true (.wire 0b10101010) = .ok (.badCode 0b10101010) ∧ decode false (.wire 0b10101010) = .ok .esc ∧
  decode false (.wire 0b00000101) = .ok (.lit 0b00000101) ∧ decode false (.header 0b01000110) = .ok (.header 0b01 0b000110) ∧
  decode false (.wirePair 0b10101010 0b00000101) = .ok .enc55 ∧
  decode false (.wirePair 0b10101010 0b00001010) = .ok .encAA ∧
  decode false (.ckCmd 0b01 0x46) = .ok (.ckWrite 0x46) ∧ decode false (.desCmd 0b01 0x46) = .ok (.desPush 0x46) ∧
  decode false (.serCmd 0b11 0 0 (Vector.replicate 63 0) false) = .ok .serRestart

/-- R81, R98: every well-formed instruction, under the receiver condition its row stands under, is decoded from its own word,
with every operand at every value the encoding admits. -/
def Obligations.DecodeOfEncode : Prop :=
  ∀ (i : Instr) (esc : Bool), i.wellFormed = true → i.escContext = none ∨ i.escContext = some esc →
    decode esc (encode i) = .ok i

/-- R81, R95, R98: whatever the decoder answers is well formed, stands under the condition it was decoded under, and its own
word decodes to it again. That the decoder rejects nothing but a pair that is neither escape pair, a word the opcode table has no
row for, is the model's choice (log 7). -/
def Obligations.DecodedInstructionsAreWellFormed : Prop :=
  ∀ (esc : Bool) (w : PortWord),
    (∀ i, decode esc w = .ok i →
      i.wellFormed = true ∧ (i.escContext = none ∨ i.escContext = some esc) ∧ decode esc (encode i) = .ok i) ∧
    (∀ r, decode esc w = .error r ↔
      ∃ a b, w = .wirePair a b ∧ r = .notAnEscapePair a b ∧ ¬(a = 0xAA#8 ∧ (b = 0x05#8 ∨ b = 0x0A#8)))

/-- R83, R84: `pack` is `{service, length}` and `64 * service + length`; `unpack` takes bits 7 to 6 and bits 5 to 0 and is its
inverse both ways, on every header. -/
def Obligations.UnpackInvertsPack : Prop :=
  (∀ sv n, pack sv n = sv ++ n ∧ (pack sv n).toNat = 64 * sv.toNat + n.toNat) ∧
  pack 1 6 = 0x46#8 ∧
  (∀ h, unpack h = (h.extractLsb' 6 2, h.extractLsb' 0 6)) ∧
  (∀ sv n, unpack (pack sv n) = (sv, n)) ∧
  (∀ h, pack (unpack h).1 (unpack h).2 = h)

/-! ### The accumulator -/

/-- R110, R21: `ck` is `CK_INIT` after hardware reset; `CK.RESET` sets it to `CK_INIT` from any state, twice as once, and changes
nothing on a freshly reset block. -/
def Obligations.AccumulatorReset : Prop :=
  (∀ s, exec .ckReset s = .next { s with ck := Config.checksum.init, result := .nothing }) ∧
  (∀ s t, exec .ckReset s = .next t → exec .ckReset t = .next t) ∧
  State.reset.ck = Config.checksum.init ∧ exec .ckReset State.reset = .next State.reset ∧
  ∀ esc b, decode esc (.ckCmd 0b10 b) = .ok .ckReset

/-- R111: `CK.WRITE b` folds any byte, in any state. -/
def Obligations.AccumulatorWrite : Prop :=
  (∀ b s, exec (.ckWrite b) s = .next { s with ck := Config.checksum.step s.ck b, result := .nothing }) ∧
  ∀ esc b, decode esc (.ckCmd 0b01 b) = .ok (.ckWrite b)

/-- R112: `CK.VALUE` returns `ck` itself and changes no register, under every command code; read twice, the same byte. -/
def Obligations.AccumulatorValue : Prop :=
  (∀ s, exec .ckValue s = .next { s with result := .value s.ck }) ∧
  (∀ s t u, exec .ckValue s = .next t → exec .ckValue t = .next u → u.result = t.result) ∧
  (∀ s : State, s.ckValue = s.ck) ∧
  ∀ esc cc, decode esc (.ckValue cc) = .ok .ckValue

/-- R113: `CK(B)` is what `CK.RESET` and then `CK.WRITE` of each byte leave in `ck`; it is a left fold of `CK_STEP` from
`CK_INIT`, and `CK(B ++ C)` needs no memory of `B` but `CK(B)`. -/
def Obligations.ChecksumIsTheLeftFold : Prop :=
  (∀ B s, runAll (.ckReset :: B.map Instr.ckWrite) s =
    .next ({ s with ck := ckOf Config.checksum B, result := .nothing }, List.replicate (B.length + 1) .nothing)) ∧
  ∀ c : Checksum, ckOf c [] = c.init ∧ (∀ B b, ckOf c (B ++ [b]) = c.step (ckOf c B) b) ∧
    ∀ B C, ckOf c (B ++ C) = C.foldl c.step (ckOf c B)

/-- R114: feeding a sequence's own checksum leaves the valid sentinel `0`, as a law of every checksum and as operations on the
block; `CK_STEP(v, v) = 0` for every `v` is enough for it. -/
def Obligations.SelfVerifyingResidue : Prop :=
  (∀ (c : Checksum) B, c.step (ckOf c B) (ckOf c B) = 0#8) ∧
  (∀ B s, ∃ t, runAll (cksumOps B ++ [.ckWrite (ckOf Config.checksum B), .ckValue]) s =
      .next (t, List.replicate (B.length + 1) .nothing ++ [.value (ckOf Config.checksum B), .nothing, .value 0#8]) ∧
    t.ck = 0#8 ∧ t.ser = s.ser ∧ t.des = s.des) ∧
  ∀ (init : Byte) (step : Byte → Byte → Byte), (∀ v, step v v = 0#8) →
    ∀ B : List Byte, step (B.foldl step init) (B.foldl step init) = 0#8

/-- R115: with `CK_INJ_BYTE`, which no rule assumes, the residue test accepts exactly the checksum byte the sender computed. -/
def Obligations.InjectiveResidueTest : Prop :=
  ∀ c : Checksum, InjByte c → ∀ B x, c.step (ckOf c B) x = 0#8 ↔ x = ckOf c B

/-! ### The serializer -/

/-- R120: `SER.LOAD f, e` is accepted in every state, holds the Frame and `send_eof`, and starts the sequence afresh. -/
def Obligations.SerializerLoad : Prop :=
  (∀ f e s, ∃ t, exec (.serLoad f e) s = .next t ∧
    t = { s with
      ser :=
        { service := f.service, len := BitVec.ofNat 6 f.payload.length, payload := f.payload, eof := e,
          ck := Config.checksum.init, idx := 0, phase := .sof, pend := .empty, fault := false }
      result := .nothing } ∧
    t.serDone = false ∧ t.ser.len.toNat = f.payload.length) ∧
  ∀ esc sv n (p : Vector Byte 63) e, ∃ f, decode esc (.serCmd 0b10 sv n p e) = .ok (.serLoad f e) ∧
    f.service = sv ∧ f.payload.length = n.toNat ∧ ∀ k, k < n.toNat → f.payload[k]? = p[k]?

/-- R122: a pending escape code is returned before the phase is looked at, in every phase, and only `s_pend` changes. -/
def Obligations.PendingCodeIsReturnedFirst : Prop :=
  ∀ s, (s.ser.pend = .code55 →
      exec .serNext s = .next { s with ser := { s.ser with pend := .empty }, result := .byte 0x05#8 }) ∧
    (s.ser.pend = .codeAA →
      exec .serNext s = .next { s with ser := { s.ser with pend := .empty }, result := .byte 0x0A#8 })

/-- R123 and R127: the SOF and EOF flags are the byte `0x55`, neither escaped nor folded; only the phase changes. -/
def Obligations.FlagsAreSentUnescaped : Prop :=
  ∀ s, s.ser.pend = .empty →
    (s.ser.phase = .sof →
      exec .serNext s = .next { s with ser := { s.ser with phase := .header }, result := .byte 0x55#8 }) ∧
    (s.ser.phase = .eof →
      exec .serNext s = .next { s with ser := { s.ser with phase := .ended }, result := .byte 0x55#8 })

/-- R124, R129: arm HEADER folds the unescaped header, goes straight to CRC for an empty payload, and sends the header with
escaping; the header is `0x55` exactly for service 1, length 21, and `0xAA` exactly for service 2, length 42. -/
def Obligations.HeaderArm : Prop :=
  (∀ s h, s.ser.pend = .empty → s.ser.phase = .header → h = pack s.ser.service s.ser.len →
    exec .serNext s = .next { s with
      ser := { s.ser with
        ck := Config.checksum.step s.ser.ck h
        phase := if s.ser.len = 0 then .crc else .payload
        pend := if h = 0x55#8 then .code55 else if h = 0xAA#8 then .codeAA else .empty }
      result := .byte (if h = 0x55#8 ∨ h = 0xAA#8 then 0xAA#8 else h) }) ∧
  ∀ sv n, (pack sv n = 0x55#8 ↔ sv = 1 ∧ n = 21) ∧ (pack sv n = 0xAA#8 ↔ sv = 2 ∧ n = 42)

/-- R125, R129: arm PAYLOAD reads the byte at `s_idx`, folds it unescaped and once, moves the index on, goes to CRC after the
last byte, and sends the byte with escaping. -/
def Obligations.PayloadArm : Prop :=
  ∀ s b, s.ser.pend = .empty → s.ser.phase = .payload → s.ser.idx < s.ser.len →
    s.ser.payload[s.ser.idx.toNat]? = some b →
    exec .serNext s = .next { s with
      ser := { s.ser with
        ck := Config.checksum.step s.ser.ck b
        idx := s.ser.idx + 1
        phase := if s.ser.idx + 1 = s.ser.len then .crc else .payload
        pend := if b = 0x55#8 then .code55 else if b = 0xAA#8 then .codeAA else .empty }
      result := .byte (if b = 0x55#8 ∨ b = 0xAA#8 then 0xAA#8 else b) }

/-- R126, R129: arm CRC sends the accumulator's value with escaping and does not fold it; EOF follows if it was asked for. -/
def Obligations.CrcArm : Prop :=
  ∀ s, s.ser.pend = .empty → s.ser.phase = .crc →
    exec .serNext s = .next { s with
      ser := { s.ser with
        phase := if s.ser.eof then .eof else .ended
        pend := if s.ser.ck = 0x55#8 then .code55 else if s.ser.ck = 0xAA#8 then .codeAA else .empty }
      result := .byte (if s.ser.ck = 0x55#8 ∨ s.ser.ck = 0xAA#8 then 0xAA#8 else s.ser.ck) }

/-- R128: past the end, `SER.NEXT` returns `Fault`, sets `s_fault`, changes no other register, and does so again every time. -/
def Obligations.PullPastTheEndFaults : Prop :=
  ∀ s, s.ser.phase = .ended → s.ser.pend = .empty →
    exec .serNext s = .next { s with ser := { s.ser with fault := true }, result := .fault } ∧
    ∀ n, ∃ t, runAll (List.replicate n .serNext) s = .next (t, List.replicate n .fault) ∧
      t.ser = { s.ser with fault := s.ser.fault || decide (0 < n) } ∧ t.ck = s.ck ∧ t.des = s.des

/-- R192: `Fault` is returned by, and only by, a `SER.NEXT` with `s_done = 1`, whatever the instruction; that `SER.NEXT` produces
no byte, sets `s_fault` and changes nothing else, and no later `SER.NEXT` clears the bit. -/
def Obligations.OnlyOverrunReturnsFault : Prop :=
  (∀ i s t, exec i s = .next t → (t.result = .fault ↔ i = .serNext ∧ s.serDone = true)) ∧
  (∀ s, s.serDone = true →
    exec .serNext s = .next { s with ser := { s.ser with fault := true }, result := .fault }) ∧
  ∀ s t, exec .serNext s = .next t → s.ser.fault = true → t.ser.fault = true

/-- R29: `s_fault` is set by an overrun, cleared by `SER.LOAD`, `SER.RESTART` and hardware reset, and kept by everything else;
`s_done` is no register but the status `s_phase = END` and `s_pend = NONE`. -/
def Obligations.FaultBitLifetime : Prop :=
  (∀ s rest, s.inputs = .hardwareReset :: rest → ∃ t, step s = .next t ∧ t.ser.fault = false) ∧
  (∀ s : State, s.serDone = true ↔ s.ser.phase = .ended ∧ s.ser.pend = .empty) ∧
  ∀ i s t, exec i s = .next t →
    (i = .serNext → s.serDone = true → t.ser.fault = true) ∧
    (i = .serNext → s.serDone = false → t.ser.fault = s.ser.fault) ∧
    (i = .serRestart ∨ (∃ f e, i = .serLoad f e) → t.ser.fault = false) ∧
    (i ≠ .serNext → i ≠ .serRestart → (∀ f e, i ≠ .serLoad f e) → t.ser.fault = s.ser.fault)

/-- R130: `SER.RESTART` starts the held Frame again, from any state, twice as once: the state after it is the state after
`SER.LOAD` of the Frame and `send_eof` held. -/
def Obligations.SerializerRestart : Prop :=
  (∀ s, exec .serRestart s = .next { s with
      ser := { s.ser with phase := .sof, idx := 0, pend := .empty, ck := Config.checksum.init, fault := false }
      result := .nothing }) ∧
  (∀ s t, exec .serRestart s = .next t → exec .serRestart t = .next t) ∧
  (∀ s (f : Frame), f.service = s.ser.service → f.payload = s.ser.payload → f.payload.length = s.ser.len.toNat →
    exec .serRestart s = exec (.serLoad f s.ser.eof) s) ∧
  ∀ esc sv n p e, decode esc (.serCmd 0b11 sv n p e) = .ok .serRestart

/-- R132: `SER.DONE` returns whether the phase is END with no code pending, changes no register, and is 1 exactly when the next
`SER.NEXT` would fault. -/
def Obligations.SerializerDone : Prop :=
  (∀ s, exec .serDone s = .next { s with result := .done (s.ser.phase == .ended && s.ser.pend == .empty) }) ∧
  (∀ s : State, s.serDone = true ↔ s.ser.phase = .ended ∧ s.ser.pend = .empty) ∧
  (∀ s : State, s.serDone = true ↔ ∃ t, exec .serNext s = .next t ∧ t.result = .fault) ∧
  ∀ esc cc, decode esc (.serDone cc) = .ok .serDone

/-- R134: how `s_phase` moves under hardware reset and under every instruction. -/
def Obligations.PhaseTransitions : Prop :=
  (∀ s rest, s.inputs = .hardwareReset :: rest → ∃ t, step s = .next t ∧ t.ser.phase = .ended) ∧
  ∀ i s t, exec i s = .next t →
    ((i = .serRestart ∨ ∃ f e, i = .serLoad f e) → t.ser.phase = .sof) ∧
    (i = .serNext → s.ser.pend ≠ .empty → t.ser.phase = s.ser.phase) ∧
    (i = .serNext → s.ser.pend = .empty →
      (s.ser.phase = .sof → t.ser.phase = .header) ∧
      (s.ser.phase = .header → s.ser.len = 0 → t.ser.phase = .crc) ∧
      (s.ser.phase = .header → s.ser.len > 0 → t.ser.phase = .payload) ∧
      (s.ser.phase = .payload → s.ser.idx + 1 < s.ser.len → t.ser.phase = .payload) ∧
      (s.ser.phase = .payload → s.ser.idx + 1 = s.ser.len → t.ser.phase = .crc) ∧
      (s.ser.phase = .crc → s.ser.eof = true → t.ser.phase = .eof) ∧
      (s.ser.phase = .crc → s.ser.eof = false → t.ser.phase = .ended) ∧
      (s.ser.phase = .eof → t.ser.phase = .ended) ∧
      (s.ser.phase = .ended → t.ser.phase = .ended ∧ t.result = .fault)) ∧
    (i ≠ .serNext → i ≠ .serRestart → (∀ f e, i ≠ .serLoad f e) → t.ser.phase = s.ser.phase)

/-- R86, R129: a header, payload or checksum byte `x` goes out as `enc(x)`: the first wire byte from the arm that sends it and,
where `x` is reserved, the escape code from the very next `SER.NEXT`, which changes only `s_pend`. -/
def Obligations.ContentGoesOutAsEnc : Prop :=
  ∀ s t x, s.ser.pend = .empty →
    (s.ser.phase = .header ∧ x = pack s.ser.service s.ser.len) ∨
      (s.ser.phase = .payload ∧ s.ser.idx < s.ser.len ∧ s.ser.payload[s.ser.idx.toNat]? = some x) ∨
      (s.ser.phase = .crc ∧ x = s.ser.ck) →
    exec .serNext s = .next t →
    (∃ b, t.result = .byte b ∧ (enc x = [b] ∧ t.ser.pend = .empty ∨
      ∃ code, enc x = [b, code] ∧
        exec .serNext t = .next { t with ser := { t.ser with pend := .empty }, result := .byte code }))

/-- R133: after `SER.LOAD f, e`, or `SER.RESTART` with `f` and `e` held, the `SER.NEXT` steps return exactly the bytes of
`wire(f, e)`, in order, then `Fault` for ever; `s_done` is 0 before each byte and 1 after the last. -/
def Obligations.SerializerSpellsTheWire : Prop :=
  ∀ f e s i,
    i = .serLoad f e ∨ (i = .serRestart ∧ s.ser.service = f.service ∧ s.ser.len.toNat = f.payload.length ∧
      s.ser.payload = f.payload ∧ s.ser.eof = e) →
    (∀ k, k < (wireOf Config.checksum f e).length → ∃ t,
      runAll (i :: List.replicate k .serNext) s =
        .next (t, .nothing :: ((wireOf Config.checksum f e).take k).map Result.byte) ∧ t.serDone = false) ∧
    ∀ n, ∃ t,
      runAll (i :: List.replicate ((wireOf Config.checksum f e).length + n) .serNext) s =
        .next (t, .nothing :: ((wireOf Config.checksum f e).map Result.byte ++ List.replicate n .fault)) ∧
      t.serDone = true ∧ (wireOf Config.checksum f e).length ≤ 131

/-- R192, R230, R242: from a block given the requests `SER.LOAD f, e` and then `k` times `SER.NEXT`, the run is good exactly when
the owner does not pull past the last byte of `wire(f, e)`. That the owner's operations are a list of requests, one a step, is
the model's choice (log 2). -/
def Obligations.GoodRunIffNotPulledPastTheEnd : Prop :=
  ∀ f e (s : State) k,
    GoodRun (k + 1) { s with
      inputs := .word (encode (.serLoad f e)) :: List.replicate k (.word (encode .serNext)) } ↔
      k ≤ (wireOf Config.checksum f e).length

/-- R90: a Frame is 3 to 131 wire bytes, one for each flag and one or two for each content byte. -/
def Obligations.WireLength : Prop :=
  ∀ (c : Checksum) f e,
    (wireOf c f e).length =
      1 + ((frameContent c f).map fun b => if b = 0x55#8 ∨ b = 0xAA#8 then 2 else 1).sum + (if e then 1 else 0) ∧
    3 ≤ (wireOf c f e).length ∧ (wireOf c f e).length ≤ 131

/-- R171, R94: in `wire(f, e)` a `0x55` stands only at the first place and, with an EOF flag, at the last; a `0xAA` is always
followed by an escape code; between the flags the escape pairs stand for the header, the payload and the checksum. -/
def Obligations.EscapingIsCorrect : Prop :=
  ∀ (c : Checksum) f e,
    (∀ k : Nat, (wireOf c f e)[k]? = some 0x55#8 → k = 0 ∨ (e = true ∧ k + 1 = (wireOf c f e).length)) ∧
    (∀ k : Nat, (wireOf c f e)[k]? = some 0xAA#8 → (wireOf c f e)[k + 1]? = some 0x05#8 ∨ (wireOf c f e)[k + 1]? = some 0x0A#8) ∧
    ∃ W, wireOf c f e = 0x55#8 :: (W ++ if e then [0x55#8] else []) ∧
      unescape false W = some (pack f.service (BitVec.ofNat 6 f.payload.length) :: (f.payload ++ [frameChecksum c f]))

/-- R173: an empty payload is sent as the flag, the header `64 * s`, which is never escaped, the checksum, which is escaped where
its value asks for it, and the EOF flag if it was asked for. -/
def Obligations.ZeroLengthWire : Prop :=
  ∀ (c : Checksum) (f : Frame) e, f.payload = [] →
    wireOf c f e =
      [0x55#8, BitVec.ofNat 8 (64 * f.service.toNat)] ++
        (enc (c.step c.init (BitVec.ofNat 8 (64 * f.service.toNat))) ++ if e then [0x55#8] else [])

/-! ### The receiver -/

/-- R81, R87, R142, R144: the content byte each raw byte gives to the body logic. It is a flag before anything else, then a code if
an escape is pending, then an escape prefix, else itself. That `HEADER`, `ENC_55` and `ENC_AA`, rows that name no operation, are
instructions at all, and give the receiver the content byte whose whole wire form arrives, is the model's choice (log 6); the
last three clauses rest on it. -/
def Obligations.WhatTheWireDelivers : Prop :=
  (∀ esc b, (Instr.desPush b).delivers esc =
    if b = 0x55#8 then none
    else if esc = true then (if b = 0x05#8 then some 0x55#8 else if b = 0x0A#8 then some 0xAA#8 else none)
    else if b = 0xAA#8 then none else some b) ∧
  (∀ esc, Instr.flag.delivers esc = none ∧ (esc = false → Instr.esc.delivers esc = none)) ∧
  Instr.code55.delivers true = some 0x55#8 ∧ Instr.codeAA.delivers true = some 0xAA#8 ∧
  (∀ b, (Instr.badCode b).wellFormed = true → (Instr.badCode b).delivers true = none) ∧
  (∀ b, (Instr.lit b).wellFormed = true → (Instr.lit b).delivers false = some b) ∧
  Instr.enc55.delivers false = some 0x55#8 ∧ Instr.encAA.delivers false = some 0xAA#8 ∧
  ∀ sv n, (Instr.header sv n).delivers false = some (pack sv n)

/-- R81: the class of every raw byte, by its value and `d_esc`, in the order of the table. R140: `DES.PUSH b` does what the wire
class of `b` does under the receiver's escape bit, in every state. -/
def Obligations.PushIsTheWireClass : Prop :=
  (∀ esc b, decode esc (.wire b) =
    .ok (if b = 0x55#8 then .flag
      else if esc = true then (if b = 0x05#8 then .code55 else if b = 0x0A#8 then .codeAA else .badCode b)
      else if b = 0xAA#8 then .esc else .lit b)) ∧
  ∀ s b i, decode s.des.esc (.wire b) = .ok i → exec (.desPush b) s = exec i s

/-- R141: a raw `0x55`, however it is given, drops everything in progress and awaits a header, in every state, with an escape
pending or not; its label (R153) is `Resync` where content was in progress, else `Start`. -/
def Obligations.RawFlagResynchronizes : Prop :=
  (∀ i s, i.rawByte = some 0x55#8 →
    exec i s = .next { s with
      des :=
        { state := .readHeader, esc := false, ck := Config.checksum.init, service := 0, len := 0, idx := 0, payload := [] }
      result := .noFrame }) ∧
  ∀ (c : Checksum) (d : Deserializer), d.label c 0x55#8 =
    if d.state = .readPayload ∨ d.state = .readCrc ∨ (d.state = .readHeader ∧ d.esc = true) then .resync else .start

/-- R143: a raw `0xAA` with no escape pending, however it is given, sets `d_esc` and changes nothing else, in every state. -/
def Obligations.RawEscapeOpensAnEscape : Prop :=
  ∀ i s, i.rawByte = some 0xAA#8 → s.des.esc = false →
    exec i s = .next { s with des := { s.des with esc := true }, result := .noFrame }

/-- R194: a byte after the escape flag that is none of `0x05`, `0x0A`, `0x55` resets the receiver, in every state, and returns
`None`. -/
def Obligations.EscapeViolationResets : Prop :=
  ∀ i s b, i.rawByte = some b → s.des.esc = true → b ≠ 0x55#8 → b ≠ 0x05#8 → b ≠ 0x0A#8 →
    exec i s = .next { s with
      des :=
        { state := .searchSof, esc := false, ck := Config.checksum.init, service := 0, len := 0, idx := 0, payload := [] }
      result := .noFrame }

/-- R145: in `SearchSof` a content byte is ignored. (Of the receiver's registers only `d_esc` is written, by the escape code
that carried the byte, R142.) -/
def Obligations.SearchSofIgnoresContent : Prop :=
  ∀ i s x, i.delivers s.des.esc = some x → s.des.state = .searchSof →
    exec i s = .next { s with des := { s.des with esc := false }, result := .noFrame }

/-- R146: in `ReadHeader` a content byte is unpacked into service and length, folded, and followed by the payload or, for length
0, by the checksum. -/
def Obligations.ReadHeaderTakesTheHeader : Prop :=
  ∀ i s x, i.delivers s.des.esc = some x → s.des.state = .readHeader →
    exec i s = .next { s with
      des :=
        { state := if x.extractLsb' 0 6 > 0 then .readPayload else .readCrc
          esc := false
          ck := Config.checksum.step s.des.ck x
          service := x.extractLsb' 6 2
          len := x.extractLsb' 0 6
          idx := 0
          payload := [] }
      result := .noFrame }

/-- R147: in `ReadPayload` a content byte is stored at `d_idx`, folded, and the last one is followed by the checksum. -/
def Obligations.ReadPayloadStoresTheByte : Prop :=
  ∀ i s x, i.delivers s.des.esc = some x → s.des.state = .readPayload → s.des.idx < s.des.len →
    s.des.payload.length = s.des.idx.toNat →
    exec i s = .next { s with
      des := { s.des with
        state := if s.des.idx + 1 = s.des.len then .readCrc else .readPayload
        esc := false
        ck := Config.checksum.step s.des.ck x
        idx := s.des.idx + 1
        payload := s.des.payload ++ [x] }
      result := .noFrame }

/-- R148: in `ReadCrc` the folded checksum byte decides: a residue of `0` yields the Frame held, any other drops it in silence;
the receiver is in the reset state after either. -/
def Obligations.ReadCrcYieldsOrDrops : Prop :=
  ∀ i s x, ∀ f : Frame, i.delivers s.des.esc = some x → s.des.state = .readCrc →
    s.des.len.toNat ≤ s.des.payload.length → f.service = s.des.service →
    f.payload = s.des.payload.take s.des.len.toNat →
    exec i s = .next { s with
      des :=
        { state := .searchSof, esc := false, ck := Config.checksum.init, service := 0, len := 0, idx := 0, payload := [] }
      result := if Config.checksum.step s.des.ck x = 0#8 then .frame f else .noFrame }

/-- R151: a `DES.PUSH` yields a Frame exactly when it gives a content byte to `ReadCrc` whose folded residue is `0`, and then
the one Frame held; exactly then its label (R153) is `FrameOk`. -/
def Obligations.OnlyReadCrcYields : Prop :=
  ∀ b s t, exec (.desPush b) s = .next t →
    (∀ f, t.result = .frame f ↔
      s.des.state = .readCrc ∧ f.service = s.des.service ∧ f.payload = s.des.payload.take s.des.len.toNat ∧
        ∃ x, (Instr.desPush b).delivers s.des.esc = some x ∧ Config.checksum.step s.des.ck x = 0#8) ∧
    (s.des.label Config.checksum b = .frameOk ↔ ∃ f, t.result = .frame f)

/-- R152: how `d_state` moves, and what is yielded: `ReadHeader` is entered only by a raw `0x55`, `SearchSof` is left only by a
raw `0x55`, and the rest of the table. -/
def Obligations.ReceiverTransitions : Prop :=
  (∀ s rest, s.inputs = .hardwareReset :: rest → ∃ t, step s = .next t ∧ t.des.state = .searchSof ∧ t.result = .nothing) ∧
  (∀ s, ∃ t, exec .desReset s = .next t ∧ t.des.state = .searchSof ∧ t.result = .nothing) ∧
  (∀ i s t, exec i s = .next t → i.port ≠ .des → t.des.state = s.des.state) ∧
  ∀ b s t, exec (.desPush b) s = .next t →
    (b = 0x55#8 → t.des.state = .readHeader ∧ t.result = .noFrame) ∧
    (b ≠ 0x55#8 → s.des.esc = true → b ≠ 0x05#8 → b ≠ 0x0A#8 → t.des.state = .searchSof ∧ t.result = .noFrame) ∧
    (b = 0xAA#8 → s.des.esc = false → t.des.state = s.des.state ∧ t.result = .noFrame) ∧
    (∀ x, (Instr.desPush b).delivers s.des.esc = some x →
      (s.des.state = .searchSof → t.des.state = .searchSof ∧ t.result = .noFrame) ∧
      (s.des.state = .readHeader → x.extractLsb' 0 6 > 0 → t.des.state = .readPayload ∧ t.result = .noFrame) ∧
      (s.des.state = .readHeader → x.extractLsb' 0 6 = 0 → t.des.state = .readCrc ∧ t.result = .noFrame) ∧
      (s.des.state = .readPayload → s.des.idx + 1 < s.des.len → t.des.state = .readPayload ∧ t.result = .noFrame) ∧
      (s.des.state = .readPayload → s.des.idx + 1 = s.des.len → t.des.state = .readCrc ∧ t.result = .noFrame) ∧
      (s.des.state = .readCrc → Config.checksum.step s.des.ck x = 0#8 → t.des.state = .searchSof ∧
        ∃ f, t.result = .frame f ∧ f.service = s.des.service ∧ f.payload = s.des.payload.take s.des.len.toNat) ∧
      (s.des.state = .readCrc → Config.checksum.step s.des.ck x ≠ 0#8 → t.des.state = .searchSof ∧ t.result = .noFrame)) ∧
    (b ≠ 0x55#8 → s.des.state ≠ .readHeader → t.des.state ≠ .readHeader) ∧
    (b ≠ 0x55#8 → s.des.state = .searchSof → t.des.state = .searchSof)

/-- R147 (frame): the store of a payload byte leaves every other position of `d_payload` as it was, and both buffers' other
bytes. -/
def Obligations.PayloadStoreFrame : Prop :=
  ∀ i s t x, i.delivers s.des.esc = some x → s.des.state = .readPayload → s.des.idx < s.des.len →
    s.des.payload.length = s.des.idx.toNat → exec i s = .next t →
    memRead t.des.payload t.des.len s.des.idx = some x ∧
    (∀ j, j ≠ s.des.idx → memRead t.des.payload t.des.len j = memRead s.des.payload s.des.len j) ∧
    ∀ j, memRead t.ser.payload t.ser.len j = memRead s.ser.payload s.ser.len j

/-! ### The whole block -/

/-- R95, U7: code `00` holds the state on every command field; code `11` on `ck_cmd` and `des_cmd` has no operation and is
refused. -/
def Obligations.NopHoldsAndReservedStops : Prop :=
  (∀ p s, exec (.nop p) s = .next { s with result := .nothing }) ∧
  (∀ p s, exec (.reserved p) s = .refused (.reservedCommand p)) ∧
  ∀ esc b, decode esc (.ckCmd 0b00 b) = .ok (.nop .ck) ∧ decode esc (.desCmd 0b00 b) = .ok (.nop .des) ∧
    (∀ sv n p e, decode esc (.serCmd 0b00 sv n p e) = .ok (.nop .ser)) ∧
    decode esc (.ckCmd 0b11 b) = .ok (.reserved .ck) ∧ decode esc (.desCmd 0b11 b) = .ok (.reserved .des)

/-- R20, R22: an instruction of one component leaves the registers of the two others as they were; no instruction touches the
requests still to come. -/
def Obligations.ComponentsShareNothing : Prop :=
  ∀ i s t, exec i s = .next t →
    (i.port ≠ .ck → t.ck = s.ck) ∧ (i.port ≠ .ser → t.ser = s.ser) ∧ (i.port ≠ .des → t.des = s.des) ∧
    t.inputs = s.inputs

/-- R23, R24: no instruction but `SER.LOAD` writes the Frame held or `send_eof`, so every byte of `s_payload` reads as before. -/
def Obligations.HeldFrameIsWrittenOnlyByLoad : Prop :=
  ∀ i s t, exec i s = .next t → (∀ f e, i ≠ .serLoad f e) →
    t.ser.service = s.ser.service ∧ t.ser.len = s.ser.len ∧ t.ser.payload = s.ser.payload ∧ t.ser.eof = s.ser.eof ∧
    ∀ j, memRead t.ser.payload t.ser.len j = memRead s.ser.payload s.ser.len j

/-- R68: operations on two different components may be done in either order: each returns what it returned and the block ends in
the same state. -/
def Obligations.DifferentComponentsCommute : Prop :=
  ∀ i j s t u, i.port ≠ j.port → exec i s = .next t → exec j t = .next u →
    ∃ t' u', exec j s = .next t' ∧ exec i t' = .next u' ∧
      u'.ck = u.ck ∧ u'.ser = u.ser ∧ u'.des = u.des ∧ u'.inputs = u.inputs ∧
      t'.result = u.result ∧ u'.result = t.result

/-- R202: a step of one block is that block's own step and leaves every other block as it was; every block starts in its reset
state. -/
def Obligations.InstancesShareNothing : Prop :=
  (∀ (sys : System) (k : Fin sys.length) s, step sys[k] = .next s →
    ∃ sys', System.step sys k = .next sys' ∧ sys'.length = sys.length ∧ sys'[k.val]? = some s ∧
      ∀ j : Nat, j ≠ k.val → sys'[j]? = sys[j]?) ∧
  ∀ n k, k < n → (System.reset n)[k]? = some State.reset

/-- R175: each operation reset, done twice, is the same as done once, and after it the component is as freshly constructed. -/
def Obligations.ResetsAreIdempotent : Prop :=
  ∀ i s t, i = .ckReset ∨ i = .serRestart ∨ i = .desReset → exec i s = .next t →
    exec i t = .next t ∧ (i = .ckReset → t.ck = State.reset.ck) ∧ (i = .desReset → t.des = State.reset.des) ∧
    (i = .serRestart → ∀ f : Frame, f.service = s.ser.service → f.payload = s.ser.payload →
      f.payload.length = s.ser.len.toNat → ∃ u, exec (.serLoad f s.ser.eof) s = .next u ∧ u.ser = t.ser)

/-- R31, R38: the block's invariants hold after hardware reset. -/
def Obligations.InvariantHoldsAtReset : Prop := State.reset.Inv

/-- R31, R38: every step keeps the block's invariants, whatever is requested. -/
def Obligations.StepKeepsTheInvariant : Prop :=
  ∀ s t, s.Inv → step s = .next t → t.Inv

/-- R12, R64: under the invariants every instruction completes, but the reserved command; no buffer is ever accessed out of
range. -/
def Obligations.EveryInstructionCompletes : Prop :=
  ∀ i s, s.Inv → (∀ p, i ≠ .reserved p) → ∃ t, exec i s = .next t ∧ t.Inv ∧ t.inputs = s.inputs

/-- R64, R12: under the invariants a step never faults. R95, U7: it is refused at the reserved command. That it is refused also at a
pair that is neither escape pair, and nowhere else, is the model's choice (log 7). -/
def Obligations.StepNeverFaults : Prop :=
  ∀ s, s.Inv →
    (∀ r, step s ≠ .fault r) ∧
    ∀ r, step s = .refused r → ∃ w rest, s.inputs = .word w :: rest ∧
      ((∃ p, r = .reservedCommand p ∧ decode s.des.esc w = .ok (.reserved p)) ∨
        ∃ a b, r = .undecodable (.notAnEscapePair a b) ∧ w = .wirePair a b ∧
          ¬(a = 0xAA#8 ∧ (b = 0x05#8 ∨ b = 0x0A#8)))

/-! ### Sender and receiver together -/

/-- R170: whatever state the receiver is in, the wire bytes of a Frame yield exactly that Frame, by the last wire byte of the
checksum; after it the receiver is in the reset state, or, with an EOF flag, awaits a header. -/
def Obligations.RoundTrip : Prop :=
  ∀ f s,
    (∃ t, feed (wireOf Config.checksum f false).dropLast s = .next (t, [])) ∧
    (∃ t, feed (wireOf Config.checksum f false) s = .next (t, [f]) ∧ t.des = State.reset.des ∧
      t.ck = s.ck ∧ t.ser = s.ser) ∧
    (∃ t, feed (wireOf Config.checksum f true) s = .next (t, [f]) ∧
      t.des = { State.reset.des with state := .readHeader } ∧ t.ck = s.ck ∧ t.ser = s.ser) ∧
    wireOf Config.checksum f true = wireOf Config.checksum f false ++ [0x55#8]

/-- R97, R133, R170: over a perfect channel, from any state of sender and receiver, LOOPBACK yields exactly the Frame given, and
leaves the serializer done and unfaulted. -/
def Obligations.LoopbackYieldsTheFrame : Prop :=
  ∀ f e s, ∃ t, loopback f e s = .next (t, [f]) ∧ t.serDone = true ∧ t.ser.fault = false ∧ t.ck = s.ck ∧
    ∃ u, serialize f e s = .next (u, wireOf Config.checksum f e)

/-- R174: from `SearchSof`, bytes that hold no `0x55` followed by the wire bytes of a Frame yield exactly that Frame. -/
def Obligations.ResyncAfterGarbage : Prop :=
  ∀ N f e (s : State), s.des.state = .searchSof → 0x55#8 ∉ N →
    (∃ t, feed N s = .next (t, []) ∧ t.des.state = .searchSof ∧ (s.Inv → t.des = { s.des with esc := t.des.esc })) ∧
    ∃ t, feed (N ++ wireOf Config.checksum f e) s = .next (t, [f])

/-- R176: in any state a run can reach, after any bytes whatever, the wire bytes of a Frame yield that Frame last, and no bytes
make the receiver stop. -/
def Obligations.RecoveryAtTheNextFrame : Prop :=
  ∀ X f e s, s.Inv → ∃ t u F, feed X s = .next (t, F) ∧ feed (wireOf Config.checksum f e) t = .next (u, [f])

/-- R177: Frames sent back to back are yielded in order, from any state; one `0x55` may serve as the end of one frame and the
start of the next. -/
def Obligations.FramesBackToBack : Prop :=
  (∀ (L : List (Frame × Bool)) s, ∃ t,
    feed (L.flatMap fun p => wireOf Config.checksum p.1 p.2) s = .next (t, L.map Prod.fst)) ∧
  ∀ f g e s, ∃ t,
    feed (wireOf Config.checksum f true ++ (wireOf Config.checksum g e).tail) s = .next (t, [f, g])

/-- R178: whatever bytes a fresh receiver is fed, a Frame it yields was there on the wire: since the last raw `0x55` the content
bytes received are a header that unpacks to its service and length, its payload, and a byte that makes the residue `0`. -/
def Obligations.YieldedFramesAreStructurallyValid : Prop :=
  ∀ W b s t u F f, s.des = State.reset.des → feed W s = .next (t, F) → exec (.desPush b) t = .next u →
    u.result = .frame f →
    f.payload.length ≤ 63 ∧
    ∃ before since h k, W ++ [b] = before ++ 0x55#8 :: since ∧ 0x55#8 ∉ since ∧
      unescape false since = some (h :: (f.payload ++ [k])) ∧
      unpack h = (f.service, BitVec.ofNat 6 f.payload.length) ∧
      ckOf Config.checksum (h :: (f.payload ++ [k])) = 0#8

/-- R172: with `CK_INJ_BYTE` and `CK_INJ_ACC`, changing one unescaped payload byte, or the unescaped checksum byte, into a byte
that is neither `0x55` nor `0xAA` leaves no Frame, from any state of a receiver, and the receiver is ready for the next. It is
said of a receiver built with any checksum `c`; that the block's receiver is the one with `Config.checksum` is the first
clause. -/
def Obligations.ChecksumRejectsOneChangedByte : Prop :=
  (∀ W (s : State) d F, s.des.feed Config.checksum W = some (d, F) → ∃ t, feed W s = .next (t, F) ∧ t.des = d) ∧
  ∀ (c : Checksum) (f : Frame) (e : Bool) (d : Deserializer) (y : Byte), InjByte c → InjAcc c → y ≠ 0x55#8 → y ≠ 0xAA#8 →
    (∀ P p Q, f.payload = P ++ p :: Q → p ≠ 0x55#8 → p ≠ 0xAA#8 → y ≠ p →
      d.feed c (0x55#8 :: (enc (frameHeader f) ++ (P.flatMap enc ++ (y :: (Q.flatMap enc ++
        (enc (frameChecksum c f) ++ if e then [0x55#8] else [])))))) =
        some ({ Deserializer.reset c with state := if e then .readHeader else .searchSof }, [])) ∧
    (frameChecksum c f ≠ 0x55#8 → frameChecksum c f ≠ 0xAA#8 → y ≠ frameChecksum c f →
      d.feed c (0x55#8 :: (enc (frameHeader f) ++ (f.payload.flatMap enc ++ (y :: if e then [0x55#8] else [])))) =
        some ({ Deserializer.reset c with state := if e then .readHeader else .searchSof }, []))
end

