-- ==== Sys2Proof/Laws/State.lean ====
section
/-! SUPPORT. One lemma for each field of each update of the state, true by `rfl`. -/

namespace Sys2Proof.Machine

section
variable (s : State) (v : Byte) (z : Serializer) (d : Deserializer) (r : Result) (c : Checksum)

@[simp] theorem State.putCk_ck : (s.putCk v r).ck = v := rfl
@[simp] theorem State.putCk_ser : (s.putCk v r).ser = s.ser := rfl
@[simp] theorem State.putCk_des : (s.putCk v r).des = s.des := rfl
@[simp] theorem State.putCk_result : (s.putCk v r).result = r := rfl
@[simp] theorem State.putCk_inputs : (s.putCk v r).inputs = s.inputs := rfl

@[simp] theorem State.putSer_ck : (s.putSer z r).ck = s.ck := rfl
@[simp] theorem State.putSer_ser : (s.putSer z r).ser = z := rfl
@[simp] theorem State.putSer_des : (s.putSer z r).des = s.des := rfl
@[simp] theorem State.putSer_result : (s.putSer z r).result = r := rfl
@[simp] theorem State.putSer_inputs : (s.putSer z r).inputs = s.inputs := rfl

@[simp] theorem State.putDes_ck : (s.putDes d r).ck = s.ck := rfl
@[simp] theorem State.putDes_ser : (s.putDes d r).ser = s.ser := rfl
@[simp] theorem State.putDes_des : (s.putDes d r).des = d := rfl
@[simp] theorem State.putDes_result : (s.putDes d r).result = r := rfl
@[simp] theorem State.putDes_inputs : (s.putDes d r).inputs = s.inputs := rfl

@[simp] theorem State.report_ck : (s.report r).ck = s.ck := rfl
@[simp] theorem State.report_ser : (s.report r).ser = s.ser := rfl
@[simp] theorem State.report_des : (s.report r).des = s.des := rfl
@[simp] theorem State.report_result : (s.report r).result = r := rfl
@[simp] theorem State.report_inputs : (s.report r).inputs = s.inputs := rfl

@[simp] theorem Serializer.begin_service : (z.begin c).service = z.service := rfl
@[simp] theorem Serializer.begin_len : (z.begin c).len = z.len := rfl
@[simp] theorem Serializer.begin_payload : (z.begin c).payload = z.payload := rfl
@[simp] theorem Serializer.begin_eof : (z.begin c).eof = z.eof := rfl
@[simp] theorem Serializer.begin_ck : (z.begin c).ck = c.init := rfl
@[simp] theorem Serializer.begin_idx : (z.begin c).idx = 0 := rfl
@[simp] theorem Serializer.begin_phase : (z.begin c).phase = .sof := rfl
@[simp] theorem Serializer.begin_pend : (z.begin c).pend = .empty := rfl
@[simp] theorem Serializer.begin_fault : (z.begin c).fault = false := rfl

@[simp] theorem Serializer.raiseOverrun_service : z.raiseOverrun.service = z.service := rfl
@[simp] theorem Serializer.raiseOverrun_len : z.raiseOverrun.len = z.len := rfl
@[simp] theorem Serializer.raiseOverrun_payload : z.raiseOverrun.payload = z.payload := rfl
@[simp] theorem Serializer.raiseOverrun_eof : z.raiseOverrun.eof = z.eof := rfl
@[simp] theorem Serializer.raiseOverrun_ck : z.raiseOverrun.ck = z.ck := rfl
@[simp] theorem Serializer.raiseOverrun_idx : z.raiseOverrun.idx = z.idx := rfl
@[simp] theorem Serializer.raiseOverrun_phase : z.raiseOverrun.phase = z.phase := rfl
@[simp] theorem Serializer.raiseOverrun_pend : z.raiseOverrun.pend = z.pend := rfl
@[simp] theorem Serializer.raiseOverrun_fault : z.raiseOverrun.fault = true := rfl

/-- `ResetAll` leaves exactly the hardware reset state of the deserializer (R149, R37). -/
@[simp] theorem Deserializer.resetAll_eq_reset : d.resetAll c = Deserializer.reset c := rfl

end

end Sys2Proof.Machine
end

