-- ==== Sys2Proof/Laws/Ops.lean ====
section
/-! SUPPORT. What each shared operation does, said once: buffers, the accumulator, a step's request. -/

namespace Sys2Proof.Machine

/-- A read answers only below the announced length, with the byte stored there. -/
theorem memRead_eq_some {buf : Buffer} {len i : BitVec 6} {v : Byte} :
    memRead buf len i = some v ↔ i < len ∧ buf[i.toNat]? = some v := by
  unfold memRead
  split <;> simp_all

/-- A write answers only below the announced length and with no gap, and it stores at the end of the first `i` bytes. -/
theorem memWrite_eq_some {buf buf' : Buffer} {len i : BitVec 6} {v : Byte} :
    memWrite buf len i v = some buf' ↔ (i < len ∧ i.toNat ≤ buf.length) ∧ buf' = buf.take i.toNat ++ [v] := by
  unfold memWrite
  by_cases h : i < len ∧ i.toNat ≤ buf.length
  · rw [if_pos h, Option.some.injEq]
    exact ⟨fun e => ⟨h, e.symm⟩, fun e => e.2.symm⟩
  · rw [if_neg h]
    simp [h]

/-- The write of a receiver whose index is the number of bytes stored. -/
theorem memWrite_append {buf : Buffer} {len i : BitVec 6} {v : Byte} (h : i < len) (hi : buf.length = i.toNat) :
    memWrite buf len i v = some (buf ++ [v]) := by
  rw [memWrite_eq_some, ← hi, List.take_length]
  exact ⟨⟨h, le_refl _⟩, rfl⟩

/-- A write never makes a buffer longer than its 63 entries (R60). -/
theorem memWrite_wf {buf buf' : Buffer} {len i : BitVec 6} {v : Byte} (h : memWrite buf len i v = some buf') :
    Memory.wf buf' = true := by
  obtain ⟨⟨hlt, _⟩, rfl⟩ := memWrite_eq_some.mp h
  have hlt' : i.toNat < len.toNat := hlt
  simp only [Memory.wf, List.length_append, List.length_take, List.length_singleton, decide_eq_true_eq]
  omega

/-- A loaded Frame fits its buffer. -/
theorem Frame.payload_wf (f : Frame) : Memory.wf f.payload = true := by
  simpa [Memory.wf] using f.bound

/-- The buffers of the reset state hold nothing. -/
theorem State.reset_buffers_wf : Memory.wf State.reset.ser.payload = true ∧ Memory.wf State.reset.des.payload = true := by
  decide

@[simp] theorem ckOf_nil (c : Checksum) : ckOf c [] = c.init := rfl

/-- Folding one more byte (R113). -/
@[simp] theorem ckOf_append_singleton (c : Checksum) (B : List Byte) (b : Byte) :
    ckOf c (B ++ [b]) = c.step (ckOf c B) b := by
  simp [ckOf, ckWrite]

/-- The checksum of one byte, as the fold leaves it. -/
theorem ckOf_singleton (c : Checksum) (b : Byte) : ckOf c [b] = c.step c.init b := rfl

/-- The residue law (R114) in terms of `ckOf`. -/
theorem step_ckOf_self (c : Checksum) (B : List Byte) : c.step (ckOf c B) (ckOf c B) = 0#8 := c.residue B

theorem residueValid_iff (v : Byte) : residueValid v = true ↔ v = 0#8 := by
  simp [residueValid, validResidue]

theorem fetch_nil {s : State} (h : s.inputs = []) : fetch s = none := by
  simp [fetch, h]

theorem fetch_cons {s : State} {q : Request} {rest : List Request} (h : s.inputs = q :: rest) :
    fetch s = some (q, { s with inputs := rest }) := by
  simp [fetch, h]

theorem Serializer.isDone_iff (z : Serializer) : z.isDone = true ↔ z.phase = .ended ∧ z.pend = .empty := by
  simp [Serializer.isDone]

end Sys2Proof.Machine
end

