-- ==== Sys2Proof/Laws/Deserializer.lean ====
section
/-! SUPPORT. What a raw byte does to the receiver, said once (R140): an equation for each step and body rule, and the inversion
that names the one taken. -/

namespace Sys2Proof.Machine

section
variable {c : Checksum} {d : Deserializer} {b x : Byte}

@[simp] theorem Deserializer.clearEsc_state : d.clearEsc.state = d.state := rfl
@[simp] theorem Deserializer.clearEsc_esc : d.clearEsc.esc = false := rfl
@[simp] theorem Deserializer.clearEsc_ck : d.clearEsc.ck = d.ck := rfl
@[simp] theorem Deserializer.clearEsc_service : d.clearEsc.service = d.service := rfl
@[simp] theorem Deserializer.clearEsc_len : d.clearEsc.len = d.len := rfl
@[simp] theorem Deserializer.clearEsc_idx : d.clearEsc.idx = d.idx := rfl
@[simp] theorem Deserializer.clearEsc_payload : d.clearEsc.payload = d.payload := rfl

/-- With no escape pending there is nothing to clear. -/
theorem Deserializer.clearEsc_of_not (h : d.esc = false) : d.clearEsc = d := by
  rw [clearEsc, ← h]

@[simp] theorem Deserializer.takeEscape_clearEsc : d.takeEscape.clearEsc = d.clearEsc := rfl

theorem contentByte_of_esc (h : contentByte true b = some x) : b ≠ leadingFlag ∧ dec b = some x := by
  by_cases hb : b = leadingFlag
  · simp [contentByte, hb] at h
  · exact ⟨hb, by simpa [contentByte, hb] using h⟩

theorem contentByte_of_not_esc (h : contentByte false b = some x) : b ≠ leadingFlag ∧ b ≠ escapeFlag ∧ b = x := by
  by_cases hb : b = leadingFlag
  · simp [contentByte, hb] at h
  by_cases he : b = escapeFlag
  · simp [contentByte, he] at h
  · exact ⟨hb, he, by simpa [contentByte, hb, he] using h⟩

/-- A raw byte that stands for the content byte `x` runs the body logic on `x` with no escape pending (R142, R144). -/
theorem Deserializer.push_content (h : contentByte d.esc b = some x) :
    d.push c b = d.clearEsc.body c x := by
  unfold Deserializer.push
  cases he : d.esc
  · obtain ⟨h1, h2, rfl⟩ := contentByte_of_not_esc (he ▸ h)
    rw [if_neg h1, if_neg (by simp), if_neg h2, clearEsc_of_not he]
  · obtain ⟨h1, h2⟩ := contentByte_of_esc (he ▸ h)
    rw [if_neg h1]
    simp [Deserializer.takeCode, h2]

theorem Deserializer.push_flag : d.push c leadingFlag = some (d.takeFlag c, none) := by
  simp [Deserializer.push]

theorem Deserializer.push_escape (h : d.esc = false) : d.push c escapeFlag = some (d.takeEscape, none) := by
  simp [Deserializer.push, h, leadingFlag, escapeFlag]

theorem Deserializer.push_badCode (h : d.esc = true) (hb : b ≠ leadingFlag) (hd : dec b = none) :
    d.push c b = some (d.resetAll c, none) := by
  simp [Deserializer.push, h, hb, Deserializer.takeCode, hd]

/-- The four things a raw byte can be (R140, R196): a flag, an escape prefix, a bad code, or a content byte. -/
theorem raw_cases (esc : Bool) (b : Byte) :
    b = leadingFlag ∨ (esc = false ∧ b = escapeFlag) ∨ (esc = true ∧ b ≠ leadingFlag ∧ dec b = none) ∨
      ∃ x, contentByte esc b = some x := by
  unfold contentByte
  by_cases hb : b = leadingFlag
  · exact .inl hb
  cases esc
  · by_cases he : b = escapeFlag
    · exact .inr (.inl ⟨rfl, he⟩)
    · exact .inr (.inr (.inr ⟨b, by simp [hb, he]⟩))
  · cases hd : dec b with
    | none => exact .inr (.inr (.inl ⟨rfl, hb, rfl⟩))
    | some x => exact .inr (.inr (.inr ⟨x, by simp [hb]⟩))

theorem Deserializer.body_searchSof (h : d.state = .searchSof) : d.body c x = some (d, none) := by
  simp [Deserializer.body, h]

theorem Deserializer.body_readHeader (h : d.state = .readHeader) : d.body c x = some (d.bodyHeader c x, none) := by
  simp [Deserializer.body, h]

theorem Deserializer.body_readPayload (h : d.state = .readPayload) (hi : d.idx < d.len)
    (hl : d.payload.length = d.idx.toNat) :
    d.body c x = some (d.bodyPayload c x (d.payload ++ [x]), none) := by
  simp [Deserializer.body, h, memWrite_append hi hl]

theorem Deserializer.body_readCrc (h : d.state = .readCrc) : d.body c x = d.bodyCrc c x := by
  simp [Deserializer.body, h]

/-- The Frame held is the service and the first `d_len` bytes stored. -/
theorem Deserializer.heldFrame_eq_some {f : Frame} :
    d.heldFrame = some f ↔ d.len.toNat ≤ d.payload.length ∧ f.service = d.service ∧ f.payload = d.payload.take d.len.toNat := by
  obtain ⟨sv, p, hp⟩ := f
  unfold Deserializer.heldFrame
  split <;> simp_all [eq_comm]

/-- What `exec` makes of a raw byte. -/
theorem receive_of_push {s : State} {d : Deserializer} {y : Option Frame}
    (h : s.des.push Config.checksum b = some (d, y)) : receive b s = .next (s.putDes d (yieldResult y)) := by
  simp [receive, h]

/-- A raw byte answers a next state only through `Deserializer.push`. -/
theorem receive_next {s t : State} (h : receive b s = .next t) :
    ∃ d y, s.des.push Config.checksum b = some (d, y) ∧ t = s.putDes d (yieldResult y) := by
  unfold receive at h
  split at h
  · rename_i d y hd
    exact ⟨d, y, hd, by simpa using h.symm⟩
  · simp at h

/-- Raw bytes leave the accumulator, the serializer and the requests alone. -/
theorem receiveAll_frame {W : List Byte} {s t : State} (h : receiveAll W s = .next t) :
    t.ck = s.ck ∧ t.ser = s.ser ∧ t.inputs = s.inputs := by
  induction W generalizing s with
  | nil =>
    simp only [receiveAll, Host.Outcome.next.injEq] at h
    simp [h]
  | cons b rest ih =>
    unfold receiveAll at h
    split at h <;> try simp at h
    rename_i s' hs
    obtain ⟨d, y, -, rfl⟩ := receive_next hs
    simpa using ih h

end

end Sys2Proof.Machine
end

