-- ==== Sys2Proof/Laws/Serializer.lean ====
section
/-! SUPPORT. What `SER.NEXT` can do, said once (R121): an equation for each arm, and the inversion that names the arm taken. -/

namespace Sys2Proof.Machine

theorem Pend.code_eq_none (p : Pend) : p.code = none ↔ p = .empty := by
  cases p <;> simp [Pend.code]

section
variable {c : Checksum} {z : Serializer}

theorem Serializer.next_pending {code : Byte} (h : z.pend.code = some code) :
    z.next c = some (z.nextPending code) := by
  simp [Serializer.next, h]

theorem Serializer.next_sof (h : z.pend = .empty) (hp : z.phase = .sof) : z.next c = some z.nextSof := by
  simp [Serializer.next, h, hp, Pend.code]

theorem Serializer.next_header (h : z.pend = .empty) (hp : z.phase = .header) :
    z.next c = some (z.nextHeader c) := by
  simp [Serializer.next, h, hp, Pend.code]

theorem Serializer.next_payload {b : Byte} (h : z.pend = .empty) (hp : z.phase = .payload)
    (hr : memRead z.payload z.len z.idx = some b) : z.next c = some (z.nextPayload c b) := by
  simp [Serializer.next, h, hp, hr, Pend.code]

theorem Serializer.next_crc (h : z.pend = .empty) (hp : z.phase = .crc) : z.next c = some z.nextCrc := by
  simp [Serializer.next, h, hp, Pend.code]

theorem Serializer.next_eof (h : z.pend = .empty) (hp : z.phase = .eof) : z.next c = some z.nextEof := by
  simp [Serializer.next, h, hp, Pend.code]

theorem Serializer.next_ended (h : z.pend = .empty) (hp : z.phase = .ended) : z.next c = some z.nextEnd := by
  simp [Serializer.next, h, hp, Pend.code]

/-- Everything `SER.NEXT` can do (R121): one of the seven arms, each with what selects it. -/
theorem Serializer.next_cases {r : Serializer × Pull} (h : z.next c = some r) :
    (∃ code, z.pend.code = some code ∧ r = z.nextPending code) ∨
    (z.pend = .empty ∧
      ((z.phase = .sof ∧ r = z.nextSof) ∨
       (z.phase = .header ∧ r = z.nextHeader c) ∨
       (z.phase = .payload ∧ ∃ b, memRead z.payload z.len z.idx = some b ∧ r = z.nextPayload c b) ∨
       (z.phase = .crc ∧ r = z.nextCrc) ∨
       (z.phase = .eof ∧ r = z.nextEof) ∨
       (z.phase = .ended ∧ r = z.nextEnd))) := by
  unfold Serializer.next at h
  split at h
  · rename_i code hc
    exact .inl ⟨code, hc, by simpa using h.symm⟩
  · rename_i hc
    refine .inr ⟨(Pend.code_eq_none _).mp hc, ?_⟩
    split at h <;> simp_all [eq_comm]

/-- `SER.NEXT` stops only where arm PAYLOAD would read out of range (R64). -/
theorem Serializer.next_eq_none :
    z.next c = none ↔ z.pend = .empty ∧ z.phase = .payload ∧ memRead z.payload z.len z.idx = none := by
  unfold Serializer.next
  split
  · rename_i code hc
    constructor
    · simp
    · rintro ⟨h, -⟩
      simp [h, Pend.code] at hc
  · rename_i hc
    have := (Pend.code_eq_none _).mp hc
    split <;> simp_all

/-- The bytes `Emit` sends are `enc` of the content byte (R86, R129): the first now, the code, if any, left pending. -/
theorem emit_enc (b : Byte) : emitByte b :: (emitPend b).code.toList = enc b := by
  unfold emitByte emitPend enc
  split_ifs <;> simp_all [Pend.code, leadingFlag, escapeFlag]

/-- What `exec` makes of `SER.NEXT`. -/
theorem execSerNext_of_next {s : State} {z : Serializer} {p : Pull} (h : s.ser.next Config.checksum = some (z, p)) :
    execSerNext s = .next (s.putSer z p.result) := by
  simp [execSerNext, h]

/-- `SER.NEXT` answers a next state only through `Serializer.next`. -/
theorem execSerNext_next {s t : State} (h : execSerNext s = .next t) :
    ∃ z p, s.ser.next Config.checksum = some (z, p) ∧ t = s.putSer z p.result := by
  unfold execSerNext at h
  split at h
  · rename_i z p hz
    exact ⟨z, p, hz, by simpa using h.symm⟩
  · simp at h

end

end Sys2Proof.Machine
end

