-- ==== Sys2Proof/Laws/Exec.lean ====
section
/-! SUPPORT. What `exec` and the sequences of operations do, in terms of the components' own operations. -/

namespace Sys2Proof.Machine

/-- Every instruction that gives the receiver one raw byte is that byte arriving (R140; log 5). -/
theorem exec_of_rawByte {i : Instr} {b : Byte} (h : i.rawByte = some b) (s : State) : exec i s = receive b s := by
  cases i <;> simp [Instr.rawByte] at h <;> subst h <;> rfl

/-- The receiver's instructions: one raw byte, the whole wire form of a content byte, or one of the three commands. -/
theorem port_des_cases {i : Instr} (h : i.port = .des) :
    (∃ b, i.rawByte = some b) ∨ (∃ W, W ≠ [] ∧ ∀ s, exec i s = receiveAll W s) ∨
      i = .desReset ∨ i = .nop .des ∨ i = .reserved .des := by
  have enc_ne : ∀ b, enc b ≠ [] := fun b => by unfold enc; split_ifs <;> simp
  cases i <;> simp [Instr.port] at h <;> try subst h
  case header sv n => exact .inr (.inl ⟨_, enc_ne (pack sv n), fun _ => rfl⟩)
  case enc55 => exact .inr (.inl ⟨[escapeFlag, escapeCode55], by simp, fun _ => rfl⟩)
  case encAA => exact .inr (.inl ⟨[escapeFlag, escapeCodeAA], by simp, fun _ => rfl⟩)
  case desReset => simp
  case nop => simp
  case reserved => simp
  all_goals exact .inl ⟨_, rfl⟩

@[simp] theorem receiveAll_nil (s : State) : receiveAll [] s = .next s := rfl

theorem receiveAll_singleton (b : Byte) (s : State) : receiveAll [b] s = receive b s := by
  unfold receiveAll
  cases receive b s <;> rfl

/-- Two wire bytes: the second arrives in the state the first leaves. -/
theorem receiveAll_pair {b b' : Byte} {s s' : State} (h : receive b s = .next s') :
    receiveAll [b, b'] s = receive b' s' := by
  rw [receiveAll, h]
  exact receiveAll_singleton b' s'

/-- The wire form of a content byte, arriving with no escape pending, gives that byte to the body logic (R86, R142 to R144). -/
theorem receiveAll_enc {x : Byte} {s : State} (h : s.des.esc = false) {d : Deserializer} {y : Option Frame}
    (hb : s.des.body Config.checksum x = some (d, y)) :
    receiveAll (enc x) s = .next (s.putDes d (yieldResult y)) := by
  have esc_then : ∀ code, contentByte true code = some x →
      receiveAll [escapeFlag, code] s = .next (s.putDes d (yieldResult y)) := by
    intro code hc
    rw [receiveAll_pair (receive_of_push (Deserializer.push_escape h))]
    refine receive_of_push ((Deserializer.push_content (d := s.des.takeEscape) hc).trans ?_)
    rw [Deserializer.takeEscape_clearEsc, Deserializer.clearEsc_of_not h, hb]
  unfold enc
  split_ifs with h5 hA
  · exact esc_then _ (h5 ▸ rfl)
  · exact esc_then _ (hA ▸ rfl)
  · rw [receiveAll_singleton]
    refine receive_of_push ((Deserializer.push_content (x := x) ?_).trans ?_)
    · rw [h]
      simp [contentByte, h5, hA]
    · rw [Deserializer.clearEsc_of_not h, hb]

/-- An instruction that gives the receiver a content byte runs the body logic on it, with no escape pending (R142, R144). -/
theorem exec_of_delivers {i : Instr} {x : Byte} {s : State} (h : i.delivers s.des.esc = some x)
    {d : Deserializer} {y : Option Frame}
    (hb : s.des.clearEsc.body Config.checksum x = some (d, y)) :
    exec i s = .next (s.putDes d (yieldResult y)) := by
  have whole : s.des.esc = false → receiveAll (enc x) s = .next (s.putDes d (yieldResult y)) := fun he =>
    receiveAll_enc he (by rw [← hb, Deserializer.clearEsc_of_not he])
  have raw : (∃ b, i.rawByte = some b ∧ contentByte s.des.esc b = some x) →
      exec i s = .next (s.putDes d (yieldResult y)) := by
    rintro ⟨b, hi, hc⟩
    rw [exec_of_rawByte hi]
    exact receive_of_push ((Deserializer.push_content hc).trans hb)
  cases i
  case header sv n =>
    simp only [Instr.delivers] at h
    split at h <;> simp at h
    rename_i he
    subst h
    exact whole (by simpa using he)
  case enc55 =>
    simp only [Instr.delivers] at h
    split at h <;> simp at h
    rename_i he
    subst h
    exact whole (by simpa using he)
  case encAA =>
    simp only [Instr.delivers] at h
    split at h <;> simp at h
    rename_i he
    subst h
    exact whole (by simpa using he)
  all_goals exact raw (Option.bind_eq_some_iff.mp h)

@[simp] theorem runAll_nil (s : State) : runAll [] s = .next (s, []) := rfl

/-- One more operation in front. -/
theorem runAll_cons {i : Instr} {rest : List Instr} {s s' t : State} {rs : List Result}
    (h : exec i s = .next s') (h' : runAll rest s' = .next (t, rs)) :
    runAll (i :: rest) s = .next (t, s'.result :: rs) := by
  simp [runAll, h, h']

/-- Two sequences, one after the other. -/
theorem runAll_append {A B : List Instr} {s t u : State} {rs rs' : List Result}
    (h : runAll A s = .next (t, rs)) (h' : runAll B t = .next (u, rs')) :
    runAll (A ++ B) s = .next (u, rs ++ rs') := by
  induction A generalizing s rs with
  | nil =>
    simp only [runAll, Host.Outcome.next.injEq, Prod.mk.injEq] at h
    obtain ⟨rfl, rfl⟩ := h
    simpa using h'
  | cons i A ih =>
    simp only [runAll] at h
    split at h <;> try simp at h
    rename_i s' hs
    split at h <;> try simp at h
    rename_i t' rs'' ht
    obtain ⟨rfl, rfl⟩ := h
    exact runAll_cons hs (ih ht)

end Sys2Proof.Machine
end

