-- ==== Sys2Proof/Laws/PerInstr.lean ====
section
/-! SUPPORT. One fact about each instruction as syntax: its word has the bit pattern of its row of `spec/opcode_table.json`. -/

namespace Sys2Proof.Laws

/-- The `encoding` string of an instruction's row. -/
def rowPattern : Instr → String
  | .flag => "01010101"
  | .code55 => "00000101"
  | .codeAA => "00001010"
  | .badCode _ | .lit _ => "bbbbbbbb"
  | .esc => "10101010"
  | .header _ _ => "ssllllll"
  | .enc55 => "1010101000000101"
  | .encAA => "1010101000001010"
  | .ckWrite _ | .serNext | .desPush _ => "01"
  | .ckReset | .serLoad _ _ | .desReset => "10"
  | .ckValue | .serDone => "cc"
  | .serRestart | .reserved _ => "11"
  | .nop _ => "00"

/-- A byte's bits, the most significant first (R10). -/
def byteBits (b : Byte) : List Bool :=
  [b.getMsbD 0, b.getMsbD 1, b.getMsbD 2, b.getMsbD 3, b.getMsbD 4, b.getMsbD 5, b.getMsbD 6, b.getMsbD 7]

/-- A command code's bits. -/
def codeBits (c : BitVec 2) : List Bool := [c.getMsbD 0, c.getMsbD 1]

/-- The bits of a word that the table's pattern names: the raw byte, the header byte, the two bytes of a pair, or the command
field (R98). -/
def patternBits : PortWord → List Bool
  | .ckCmd c _ | .serCmd c _ _ _ _ | .desCmd c _ | .ckValue c | .serDone c => codeBits c
  | .wire b | .header b => byteBits b
  | .wirePair a b => byteBits a ++ byteBits b

/-- One bit against one character of a pattern: a letter is a field and takes any bit. -/
def bitFits (ch : Char) (bit : Bool) : Bool :=
  if ch = '0' then !bit else if ch = '1' then bit else true

/-- Bits against a pattern, position by position. -/
def fits : List Char → List Bool → Bool
  | [], [] => true
  | ch :: chs, bit :: bits => bitFits ch bit && fits chs bits
  | _, _ => false

/-- The word of an instruction has the pattern of its row. -/
def RowPattern.Statement (i : Instr) : Prop := fits (rowPattern i).toList (patternBits (encode i)) = true

theorem fits_byte (b : Byte) : fits "bbbbbbbb".toList (byteBits b) = true := by
  revert b; decide

theorem fits_header (b : Byte) : fits "ssllllll".toList (byteBits b) = true := by
  revert b; decide

theorem fits_code01 : fits "01".toList (codeBits 0b01) = true := by decide

theorem fits_code10 : fits "10".toList (codeBits 0b10) = true := by decide

theorem RowPattern.flag : RowPattern.Statement .flag := rfl
theorem RowPattern.code55 : RowPattern.Statement .code55 := rfl
theorem RowPattern.codeAA : RowPattern.Statement .codeAA := rfl
theorem RowPattern.badCode (b : Byte) : RowPattern.Statement (.badCode b) := fits_byte b
theorem RowPattern.esc : RowPattern.Statement .esc := rfl
theorem RowPattern.lit (b : Byte) : RowPattern.Statement (.lit b) := fits_byte b
theorem RowPattern.header (service : BitVec 2) (length : BitVec 6) : RowPattern.Statement (.header service length) :=
  fits_header (Machine.pack service length)
theorem RowPattern.enc55 : RowPattern.Statement .enc55 := rfl
theorem RowPattern.encAA : RowPattern.Statement .encAA := rfl
theorem RowPattern.ckWrite (b : Byte) : RowPattern.Statement (.ckWrite b) := fits_code01
theorem RowPattern.ckReset : RowPattern.Statement .ckReset := rfl
theorem RowPattern.ckValue : RowPattern.Statement .ckValue := rfl
theorem RowPattern.serNext : RowPattern.Statement .serNext := rfl
theorem RowPattern.serLoad (f : Frame) (eof : Bool) : RowPattern.Statement (.serLoad f eof) := fits_code10
theorem RowPattern.serRestart : RowPattern.Statement .serRestart := rfl
theorem RowPattern.serDone : RowPattern.Statement .serDone := rfl
theorem RowPattern.desPush (b : Byte) : RowPattern.Statement (.desPush b) := fits_code01
theorem RowPattern.desReset : RowPattern.Statement .desReset := rfl
theorem RowPattern.nop (port : CmdPort) : RowPattern.Statement (.nop port) := by cases port <;> rfl
theorem RowPattern.reserved (port : CmdPort) : RowPattern.Statement (.reserved port) := by cases port <;> rfl

end Sys2Proof.Laws
end

