-- ==== Sys2Proof/Tests/Slice0.lean ====
section
/-! SUPPORT. The model's own tests, with expected values written out from the spec (`95_test_vectors.md` and the encoding rules),
and, for each obligation that has hypotheses, a state and operands that meet them. -/

namespace Sys2Proof.Tests

open Sys2Proof Sys2Proof.Machine

/-! ### WellFormed: an ill-formed term for each check -/

theorem test_badCode_is_not_a_code_or_flag :
    (Instr.badCode 0x55).wellFormed = false ∧ (Instr.badCode 0x05).wellFormed = false ∧
    (Instr.badCode 0x0A).wellFormed = false ∧ (Instr.badCode 0xAA).wellFormed = true := by decide

theorem test_lit_is_not_a_flag_or_prefix :
    (Instr.lit 0x55).wellFormed = false ∧ (Instr.lit 0xAA).wellFormed = false ∧ (Instr.lit 0x05).wellFormed = true := by decide

theorem test_reserved_is_not_on_ser_cmd :
    (Instr.reserved .ser).wellFormed = false ∧ (Instr.reserved .ck).wellFormed = true := by decide

/-! ### Decoding: words written out from R81, R82, R86, R95 and V14 -/

theorem test_decode_wire_any :
    decode false (.wire 0b01010101) = .ok .flag ∧ decode true (.wire 0b01010101) = .ok .flag := by decide

theorem test_decode_wire_no_escape :
    decode false (.wire 0b10101010) = .ok .esc ∧ decode false (.wire 0b00000101) = .ok (.lit 0x05) ∧
    decode false (.wire 0b00001010) = .ok (.lit 0x0A) ∧ decode false (.wire 0xFF) = .ok (.lit 0xFF) := by decide

theorem test_decode_wire_escape :
    decode true (.wire 0b00000101) = .ok .code55 ∧ decode true (.wire 0b00001010) = .ok .codeAA ∧
    decode true (.wire 0xAA) = .ok (.badCode 0xAA) ∧ decode true (.wire 0x00) = .ok (.badCode 0x00) := by decide

theorem test_decode_header : decode false (.header 0b01010101) = .ok (.header 1 21) := by decide

theorem test_decode_wirePair :
    decode false (.wirePair 0b10101010 0b00000101) = .ok .enc55 ∧
    decode false (.wirePair 0b10101010 0b00001010) = .ok .encAA ∧
    decode false (.wirePair 0xAA 0x55) = .error (.notAnEscapePair 0xAA 0x55) := by decide

theorem test_decode_ckCmd :
    decode false (.ckCmd 0b00 1) = .ok (.nop .ck) ∧ decode false (.ckCmd 0b01 0x46) = .ok (.ckWrite 0x46) ∧
    decode false (.ckCmd 0b10 1) = .ok .ckReset ∧ decode false (.ckCmd 0b11 1) = .ok (.reserved .ck) ∧
    decode false (.ckValue 0b11) = .ok .ckValue := by decide

/-- The load ports of program P1's first step. -/
def noPayload : Vector Byte 63 := Vector.replicate 63 0xFF

theorem test_decode_serCmd :
    decode false (.serCmd 0b00 0 0 noPayload false) = .ok (.nop .ser) ∧
    decode false (.serCmd 0b01 0 0 noPayload false) = .ok .serNext ∧
    decode false (.serCmd 0b10 0b10 0 noPayload true) = .ok (.serLoad ⟨2, [], by decide⟩ true) ∧
    decode false (.serCmd 0b11 0 0 noPayload false) = .ok .serRestart ∧
    decode false (.serDone 0b10) = .ok .serDone := by
  refine ⟨rfl, rfl, ?_, rfl, rfl⟩
  simp [decode, decodeSer, loadedFrame]

theorem test_decode_desCmd :
    decode true (.desCmd 0b00 1) = .ok (.nop .des) ∧ decode true (.desCmd 0b01 0x66) = .ok (.desPush 0x66) ∧
    decode true (.desCmd 0b10 1) = .ok .desReset ∧ decode true (.desCmd 0b11 1) = .ok (.reserved .des) := by decide

theorem test_decodeTableWord :
    decodeTableWord 8 0x55 = some .flag ∧ decodeTableWord 8 0x05 = some .code55 ∧ decodeTableWord 8 0x0A = some .codeAA ∧
    decodeTableWord 8 0xAA = some .esc ∧ decodeTableWord 8 0x33 = some (.lit 0x33) ∧
    decodeTableWord 16 43525 = some .enc55 ∧ decodeTableWord 16 43530 = some .encAA ∧ decodeTableWord 8 0xFFF = some (.lit 0xFF) :=
  ⟨rfl, rfl, rfl, rfl, rfl, rfl, rfl, rfl⟩

/-- `step` runs the row's instruction as the first after reset. -/
theorem test_withFetchWord_runs :
    step (State.reset.withFetchWord 8 0x55) =
      .next { State.reset with des := { State.reset.des with state := .readHeader }, result := .noFrame } ∧
    step (State.reset.withFetchWord 8 0x05) = .next { State.reset with result := .noFrame } ∧
    step (State.reset.withFetchWord 16 43530) = .next { State.reset with result := .noFrame } := by
  refine ⟨rfl, rfl, rfl⟩

/-! ### Operand forms: V10 to V13 -/

theorem test_pack : pack 1 6 = 0x46 ∧ pack 1 21 = 0x55 ∧ pack 2 42 = 0xAA ∧ pack 3 63 = 0xFF := by decide

theorem test_unpack : unpack 0xC1 = (3, 1) ∧ unpack 0x3F = (0, 63) ∧ unpack 0x0A = (0, 10) := by decide

theorem test_enc : enc 0x55 = [0xAA, 0x05] ∧ enc 0xAA = [0xAA, 0x0A] ∧ enc 0x05 = [0x05] ∧ enc 0x56 = [0x56] := by decide

theorem test_dec : dec 0x05 = some 0x55 ∧ dec 0x0A = some 0xAA ∧ dec 0x0B = none ∧ dec 0xAA = none := by decide

/-! ### Accumulator: V7, V8, V9 (`CK_REF`) -/

theorem test_ckOf_order : ckOf refChecksum [0x01, 0x02] = 0x1B ∧ ckOf refChecksum [0x02, 0x01] = 0x2D := by decide +kernel

theorem test_ckWrite : ckWrite refChecksum 0xD5 0x55 = 0x89 ∧ ckWrite refChecksum 0x02 0x02 = 0x00 := by decide

theorem test_ckReset : exec .ckReset { State.reset with ck := 0x12 } = .next State.reset := rfl

theorem test_ckValue : exec .ckValue { State.reset with ck := 0x02 } = .next { State.reset with ck := 0x02, result := .value 0x02 } := rfl

/-! ### Serializer: V15 to V20 (`CK_REF` where a checksum value stands) -/

/-- A serializer in the middle of V15: the Frame held is `Frame(1, [55, 66])`, with EOF. -/
def sender (phase : Phase) (idx : BitVec 6) (ck : Byte) (pend : Pend) : Serializer where
  service := 1
  len := 2
  payload := [0x55, 0x66]
  eof := true
  ck := ck
  idx := idx
  phase := phase
  pend := pend
  fault := false

/-- V15 row 3: the escape begins; the byte is folded unescaped and once. -/
theorem test_next_payload :
    (sender .payload 0 0xD5 .empty).next refChecksum = some (sender .payload 1 0x89 .code55, .byte 0xAA) := by decide

/-- V15 row 4. -/
theorem test_next_pending :
    (sender .payload 1 0x89 .code55).next refChecksum = some (sender .payload 1 0x89 .empty, .byte 0x05) := by decide

/-- The last payload byte goes to `CRC`. -/
theorem test_next_last_payload :
    (sender .payload 1 0x89 .empty).next refChecksum = some (sender .crc 2 0x83 .empty, .byte 0x66) := by decide

/-- V17 row 4: an escaped checksum with no EOF leaves phase END with a code pending, so it is not done. -/
theorem test_next_crc_escaped :
    ({ sender .crc 2 0x55 .empty with eof := false }).next refChecksum =
      some ({ sender .ended 2 0x55 .code55 with eof := false }, .byte 0xAA) ∧
    (sender .ended 2 0x55 .code55).isDone = false := by decide

/-- V16 row 2: an empty payload skips PAYLOAD. -/
theorem test_next_header_empty :
    ({ sender .header 0 0x00 .empty with service := 2, len := 0, payload := [] }).next refChecksum =
      some ({ sender .crc 0 0x89 .empty with service := 2, len := 0, payload := [] }, .byte 0x80) := by decide

/-- V20 (a): `SER.NEXT` after hardware reset. -/
theorem test_serNext_after_reset :
    exec .serNext State.reset = .next { State.reset with ser := { State.reset.ser with fault := true }, result := .fault } := rfl

/-- V20 (e): `SER.LOAD` drops a pending code. -/
theorem test_serLoad_drops_the_code :
    (sender .payload 1 0x89 .code55).load refChecksum ⟨3, [], by decide⟩ false =
      { service := 3, len := 0, payload := [], eof := false, ck := 0, idx := 0, phase := .sof, pend := .empty, fault := false } := by
  decide

/-- V20 (c): `SER.RESTART` keeps the Frame. -/
theorem test_serRestart : (sender .payload 1 0x89 .empty).restart refChecksum = sender .sof 0 0x00 .empty := by decide

theorem test_serDone : exec .serDone State.reset = .next { State.reset with result := .done true } := rfl

/-! ### Deserializer: V21 to V29 (`CK_REF` where a checksum value stands) -/

/-- A receiver of `Frame(1, [55, 66, ...])` (V21). -/
def receiver (state : RecvState) (esc : Bool) (ck : Byte) (len idx : BitVec 6) (payload : Buffer) : Deserializer where
  state := state
  esc := esc
  ck := ck
  service := 1
  len := len
  idx := idx
  payload := payload

/-- V21, byte `46`. -/
theorem test_push_header :
    ((Deserializer.reset refChecksum).takeFlag refChecksum).push refChecksum 0x46 =
      some (receiver .readPayload false 0xD5 6 0 [], none) := by decide

/-- V21, bytes `AA` and `05`. -/
theorem test_push_escape_pair :
    (receiver .readPayload false 0xD5 6 0 []).push refChecksum 0xAA = some (receiver .readPayload true 0xD5 6 0 [], none) ∧
    (receiver .readPayload true 0xD5 6 0 []).push refChecksum 0x05 =
      some (receiver .readPayload false 0x89 6 1 [0x55], none) := by decide

/-- V29 (c): the checksum arrives escaped. -/
theorem test_push_crc_escaped :
    ({ receiver .readCrc true 0x55 1 1 [0xC2] with service := 0 }).push refChecksum 0x05 =
      some (Deserializer.reset refChecksum, some ⟨0, [0xC2], by decide⟩) := by decide

/-- V23: a wrong checksum is dropped in silence. -/
theorem test_push_crc_wrong :
    (receiver .readCrc false 0x12 1 1 [0x01]).push refChecksum 0x13 = some (Deserializer.reset refChecksum, none) := by decide

/-- V25 (b): `AA` after `AA` is a bad code. -/
theorem test_push_badCode :
    (receiver .readPayload true 0x0E 2 0 []).push refChecksum 0xAA = some (Deserializer.reset refChecksum, none) := by decide

/-- V26: a flag wins over a pending escape. -/
theorem test_push_flag_wins :
    (receiver .readPayload true 0x5A 2 1 [0x10]).push refChecksum 0x55 =
      some ((Deserializer.reset refChecksum).takeFlag refChecksum, none) := by decide

/-- V27: a code in `SearchSof` is ignored and starts no frame. -/
theorem test_push_searchSof :
    ({ Deserializer.reset refChecksum with esc := true }).push refChecksum 0x05 = some (Deserializer.reset refChecksum, none) := by
  decide

/-- V29 (d): `DES.RESET` in the middle. -/
theorem test_desReset :
    exec .desReset { State.reset with des := receiver .readPayload true 0xD5 6 0 [] } = .next State.reset := rfl

/-- R153: the labels of V21 to V28. -/
theorem test_label :
    (Deserializer.reset refChecksum).label refChecksum 0x55 = .start ∧
    (receiver .readPayload true 0x5A 2 1 [0x10]).label refChecksum 0x55 = .resync ∧
    (receiver .readPayload true 0x5A 2 1 [0x10]).label refChecksum 0x33 = .escViolation ∧
    (receiver .readCrc false 0x12 1 1 [0x01]).label refChecksum 0x12 = .frameOk ∧
    (receiver .readCrc false 0x12 1 1 [0x01]).label refChecksum 0x13 = .crcFail ∧
    (receiver .readCrc false 0x12 1 1 [0x01]).label refChecksum 0xAA = .quiet := by decide

/-- The wire pairs and the header as they arrive (R82, R86). -/
theorem test_exec_header_escaped :
    exec (.header 1 21) { State.reset with des := { State.reset.des with state := .readHeader } } =
      .next { State.reset with
        des := receiver .readPayload false (Config.checksum.step Config.checksum.init 0x55) 21 0 []
        result := .noFrame } := rfl

theorem test_exec_enc :
    exec .encAA { State.reset with des := receiver .readPayload false 0 2 1 [0x01] } =
      .next { State.reset with
        des := receiver .readCrc false (Config.checksum.step 0 0xAA) 2 2 [0x01, 0xAA]
        result := .noFrame } ∧
    exec .enc55 State.reset = .next { State.reset with result := .noFrame } := ⟨rfl, rfl⟩

/-! ### The block -/

theorem test_nop : exec (.nop .ser) { State.reset with result := .fault } = .next State.reset := rfl

theorem test_reserved : exec (.reserved .des) State.reset = .refused (.reservedCommand .des) := rfl

/-- V1: the wire of the source's example, with the checksum byte `02` that `CK_REF` gives it. -/
theorem test_wire :
    wireOf refChecksum ⟨1, [0x55, 0x66, 0x77, 0x88, 0x99, 0xAA], by decide⟩ true =
      [0x55, 0x46, 0xAA, 0x05, 0x66, 0x77, 0x88, 0x99, 0xAA, 0x0A, 0x02, 0x55] := by decide +kernel

/-! ### For each obligation with hypotheses: what meets them -/

/-- The block with a serializer. -/
def withSer (z : Serializer) : State := { State.reset with ser := z }

/-- The block with a deserializer. -/
def withDes (d : Deserializer) : State := { State.reset with des := d }

/-- The block with requests. -/
def withInputs (q : List Request) : State := { State.reset with inputs := q }

/-- The longest payload. -/
def longest : Buffer := List.replicate 63 0x55

theorem witness_DeserializerHardwareReset :
    exec .desReset (withDes (receiver .readCrc true 0 1 1 [0x01])) = .next State.reset := rfl

theorem witness_StepRunsTheDecodedInstruction :
    decode (withInputs [.word (.wire 0x55)]).des.esc (.wire 0x55) = .ok .flag ∧
    decode (withInputs [.word (.wirePair 0xAA 0x55)]).des.esc (.wirePair 0xAA 0x55) = .error (.notAnEscapePair 0xAA 0x55) ∧
    (withInputs [.hardwareReset]).inputs = [.hardwareReset] ∧ (withInputs []).inputs = [] := ⟨rfl, rfl, rfl, rfl⟩

theorem witness_DecodeOfEncode :
    ((Instr.badCode 0xFF).wellFormed = true ∧ (Instr.badCode 0xFF).escContext = some true) ∧
    ((Instr.lit 0x00).wellFormed = true ∧ (Instr.lit 0x00).escContext = some false) ∧
    (Instr.header 3 63).wellFormed = true ∧ (Instr.header 3 63).escContext = none := by decide

theorem witness_DecodedInstructionsAreWellFormed :
    decode true (.wire 0x00) = .ok (.badCode 0x00) ∧
    decode false (.wirePair 0x55 0x05) = .error (.notAnEscapePair 0x55 0x05) := by decide

theorem witness_AccumulatorReset : exec .ckReset { State.reset with ck := 0xFF } = .next State.reset := rfl

theorem witness_AccumulatorValue :
    exec .ckValue State.reset = .next { State.reset with result := .value Config.checksum.init } ∧
    exec .ckValue { State.reset with result := .value Config.checksum.init } =
      .next { State.reset with result := .value Config.checksum.init } := ⟨rfl, rfl⟩

theorem witness_SelfVerifyingResidue : ∀ v : Byte, (fun a b : Byte => a ^^^ b) v v = 0#8 := by simp

/-- The inverse of one shift of `CK_REF`. -/
def unshift (y : Byte) : Byte := if y.getLsbD 0 then ((y ^^^ 0x07) >>> 1) ||| 0x80 else y >>> 1

theorem unshift_crcShift (x : Byte) : unshift (crcShift x) = x := by
  revert x; decide

theorem crcShift_iterate_injective : Function.Injective (crcShift^[8]) :=
  Function.Injective.iterate (Function.LeftInverse.injective unshift_crcShift) 8

theorem xor_cancel {a b c : Byte} (h : a ^^^ b = a ^^^ c) : b = c := by
  have h' : a ^^^ (a ^^^ b) = a ^^^ (a ^^^ c) := by rw [h]
  simpa [← BitVec.xor_assoc] using h'

theorem witness_InjectiveResidueTest : InjByte refChecksum := by
  intro v b b' h
  exact xor_cancel (crcShift_iterate_injective h)

theorem witness_PendingCodeIsReturnedFirst :
    (withSer (sender .ended 2 0x55 .code55)).ser.pend = .code55 ∧ (withSer (sender .eof 2 0xAA .codeAA)).ser.pend = .codeAA :=
  ⟨rfl, rfl⟩

theorem witness_FlagsAreSentUnescaped :
    ((withSer (sender .sof 0 0 .empty)).ser.pend = .empty ∧ (withSer (sender .sof 0 0 .empty)).ser.phase = .sof) ∧
    (withSer (sender .eof 2 0 .empty)).ser.pend = .empty ∧ (withSer (sender .eof 2 0 .empty)).ser.phase = .eof := by decide

theorem witness_HeaderArm :
    (withSer (sender .header 0 0 .empty)).ser.pend = .empty ∧ (withSer (sender .header 0 0 .empty)).ser.phase = .header ∧
    (0x42 : Byte) = pack (withSer (sender .header 0 0 .empty)).ser.service (withSer (sender .header 0 0 .empty)).ser.len := by
  decide

/-- The first index and the last one a payload can have. -/
theorem witness_PayloadArm :
    ((sender .payload 0 0 .empty).phase = .payload ∧ (sender .payload 0 0 .empty).pend = .empty ∧
      (sender .payload 0 0 .empty).idx < (sender .payload 0 0 .empty).len ∧
      (sender .payload 0 0 .empty).payload[(0 : BitVec 6).toNat]? = some 0x55) ∧
    (62 : BitVec 6) < 63 ∧ longest[(62 : BitVec 6).toNat]? = some 0x55 := by decide

theorem witness_CrcArm :
    (withSer (sender .crc 2 0xAA .empty)).ser.pend = .empty ∧ (withSer (sender .crc 2 0xAA .empty)).ser.phase = .crc := by decide

theorem witness_PullPastTheEndFaults :
    (withSer (sender .ended 2 0 .empty)).ser.phase = .ended ∧ (withSer (sender .ended 2 0 .empty)).ser.pend = .empty := by decide

/-- A `SER.NEXT` past the end, and one that returns a byte. -/
theorem witness_OnlyOverrunReturnsFault :
    exec .serNext State.reset = .next { State.reset with ser := { State.reset.ser with fault := true }, result := .fault } ∧
    State.reset.serDone = true ∧
    exec .serNext (withSer (sender .sof 0 0 .empty)) =
      .next { withSer (sender .header 0 0 .empty) with result := .byte 0x55 } ∧
    (withSer (sender .sof 0 0 .empty)).serDone = false := ⟨rfl, rfl, rfl, rfl⟩

theorem witness_FaultBitLifetime :
    (withInputs [.hardwareReset]).inputs = [.hardwareReset] ∧
    (∃ t, exec .serNext State.reset = .next t) ∧ State.reset.serDone = true ∧
    (∃ t, exec .serNext (withSer (sender .sof 0 0 .empty)) = .next t) ∧
    (withSer (sender .sof 0 0 .empty)).serDone = false ∧
    (∃ t, exec .serRestart State.reset = .next t) ∧ (∃ t, exec (.serLoad ⟨3, [], by decide⟩ true) State.reset = .next t) ∧
    ∃ t, exec .desReset State.reset = .next t :=
  ⟨rfl, ⟨_, rfl⟩, rfl, ⟨_, rfl⟩, rfl, ⟨_, rfl⟩, ⟨_, rfl⟩, _, rfl⟩

theorem witness_SerializerRestart :
    (∃ t, exec .serRestart (withSer (sender .eof 2 0 .code55)) = .next t) ∧
    (⟨1, [0x55, 0x66], by decide⟩ : Frame).service = (withSer (sender .eof 2 0 .code55)).ser.service ∧
    (⟨1, [0x55, 0x66], by decide⟩ : Frame).payload = (withSer (sender .eof 2 0 .code55)).ser.payload ∧
    (⟨1, [0x55, 0x66], by decide⟩ : Frame).payload.length = (withSer (sender .eof 2 0 .code55)).ser.len.toNat :=
  ⟨⟨_, rfl⟩, rfl, rfl, rfl⟩

/-- One `SER.NEXT` for each line of R134's table. -/
theorem witness_PhaseTransitions :
    (withInputs [.hardwareReset]).inputs = [.hardwareReset] ∧
    (∃ t, exec .serRestart State.reset = .next t) ∧
    ((sender .eof 2 0 .code55).pend ≠ .empty ∧ ∃ t, exec .serNext (withSer (sender .eof 2 0 .code55)) = .next t) ∧
    (∃ t, exec .serNext (withSer (sender .sof 0 0 .empty)) = .next t) ∧
    (∃ t, exec .serNext (withSer { sender .header 0 0 .empty with len := 0, payload := [] }) = .next t) ∧
    ((sender .header 0 0 .empty).len > 0 ∧ ∃ t, exec .serNext (withSer (sender .header 0 0 .empty)) = .next t) ∧
    ((sender .payload 0 0 .empty).idx + 1 < (sender .payload 0 0 .empty).len ∧
      ∃ t, exec .serNext (withSer (sender .payload 0 0 .empty)) = .next t) ∧
    ((sender .payload 1 0 .empty).idx + 1 = (sender .payload 1 0 .empty).len ∧
      ∃ t, exec .serNext (withSer (sender .payload 1 0 .empty)) = .next t) ∧
    ((sender .crc 2 0 .empty).eof = true ∧ ∃ t, exec .serNext (withSer (sender .crc 2 0 .empty)) = .next t) ∧
    (∃ t, exec .serNext (withSer { sender .crc 2 0 .empty with eof := false }) = .next t) ∧
    (∃ t, exec .serNext (withSer (sender .eof 2 0 .empty)) = .next t) ∧
    (∃ t, exec .serNext (withSer (sender .ended 2 0 .empty)) = .next t) ∧
    ∃ t, exec .ckValue State.reset = .next t :=
  ⟨rfl, ⟨_, rfl⟩, ⟨by decide, _, rfl⟩, ⟨_, rfl⟩, ⟨_, rfl⟩, ⟨by decide, _, rfl⟩, ⟨by decide, _, rfl⟩, ⟨by decide, _, rfl⟩,
    ⟨rfl, _, rfl⟩, ⟨_, rfl⟩, ⟨_, rfl⟩, ⟨_, rfl⟩, _, rfl⟩

/-- A header, a payload and a checksum byte about to be sent. -/
theorem witness_ContentGoesOutAsEnc :
    ((sender .header 0 0 .empty).pend = .empty ∧ (sender .header 0 0 .empty).phase = .header ∧
      ∃ t, exec .serNext (withSer (sender .header 0 0 .empty)) = .next t) ∧
    ((sender .payload 0 0 .empty).pend = .empty ∧ (sender .payload 0 0 .empty).phase = .payload ∧
      (sender .payload 0 0 .empty).idx < (sender .payload 0 0 .empty).len ∧
      (sender .payload 0 0 .empty).payload[(0 : BitVec 6).toNat]? = some 0x55 ∧
      ∃ t, exec .serNext (withSer (sender .payload 0 0 .empty)) = .next t) ∧
    (sender .crc 2 0xAA .empty).pend = .empty ∧ (sender .crc 2 0xAA .empty).phase = .crc ∧
      ∃ t, exec .serNext (withSer (sender .crc 2 0xAA .empty)) = .next t :=
  ⟨⟨rfl, rfl, _, rfl⟩, ⟨rfl, rfl, by decide, rfl, _, rfl⟩, rfl, rfl, _, rfl⟩

/-- The first byte, and a block that holds the Frame. -/
theorem witness_SerializerSpellsTheWire :
    0 < (wireOf Config.checksum ⟨1, [0x55, 0x66], by decide⟩ true).length ∧
    (sender .eof 2 0 .empty).service = (⟨1, [0x55, 0x66], by decide⟩ : Frame).service ∧
    (sender .eof 2 0 .empty).len.toNat = (⟨1, [0x55, 0x66], by decide⟩ : Frame).payload.length ∧
    (sender .eof 2 0 .empty).payload = (⟨1, [0x55, 0x66], by decide⟩ : Frame).payload ∧
    (sender .eof 2 0 .empty).eof = true := ⟨by simp [wireOf], rfl, rfl, rfl, rfl⟩

/-- The SOF flag, the EOF flag of an empty Frame, and the escape flag of an escaped header. -/
theorem witness_EscapingIsCorrect :
    (wireOf refChecksum ⟨0, [], by decide⟩ true)[0]? = some 0x55#8 ∧
    (wireOf refChecksum ⟨0, [], by decide⟩ true)[3]? = some 0x55#8 ∧
    (wireOf refChecksum ⟨0, [0xAA], by decide⟩ false)[2]? = some 0xAA#8 := by decide +kernel

theorem witness_ZeroLengthWire : (⟨3, [], by decide⟩ : Frame).payload = [] := rfl

theorem witness_WhatTheWireDelivers :
    (Instr.badCode 0xFF).wellFormed = true ∧ (Instr.lit 0xFF).wellFormed = true ∧ (Instr.lit 0x05).wellFormed = true := by decide

theorem witness_PushIsTheWireClass :
    decode State.reset.des.esc (.wire 0xFF) = .ok (.lit 0xFF) ∧ decode true (.wire 0x00) = .ok (.badCode 0x00) := ⟨rfl, rfl⟩

theorem witness_RawFlagResynchronizes : Instr.flag.rawByte = some 0x55#8 ∧ (Instr.desPush 0x55).rawByte = some 0x55#8 :=
  ⟨rfl, rfl⟩

theorem witness_RawEscapeOpensAnEscape :
    Instr.esc.rawByte = some 0xAA#8 ∧ (withDes (receiver .readCrc false 0 1 1 [0x01])).des.esc = false := ⟨rfl, rfl⟩

theorem witness_EscapeViolationResets :
    (Instr.badCode 0xAA).rawByte = some 0xAA#8 ∧ (withDes (receiver .readCrc true 0 1 1 [0x01])).des.esc = true ∧
    (0xAA : Byte) ≠ 0x55#8 ∧ (0xAA : Byte) ≠ 0x05#8 ∧ (0xAA : Byte) ≠ 0x0A#8 := by decide

/-- A literal, a code and an escape pair in `SearchSof`. -/
theorem witness_SearchSofIgnoresContent :
    (Instr.lit 0x05).delivers State.reset.des.esc = some 0x05 ∧ Instr.enc55.delivers State.reset.des.esc = some 0x55 ∧
    State.reset.des.state = .searchSof ∧ Instr.codeAA.delivers true = some 0xAA := ⟨rfl, rfl, rfl, rfl⟩

/-- Headers of length 0 and of length 63 in `ReadHeader`. -/
theorem witness_ReadHeaderTakesTheHeader :
    (Instr.header 3 0).delivers (withDes (receiver .readHeader false 0 0 0 [])).des.esc = some 0xC0 ∧
    (Instr.header 0 63).delivers (withDes (receiver .readHeader false 0 0 0 [])).des.esc = some 0x3F ∧
    (withDes (receiver .readHeader false 0 0 0 [])).des.state = .readHeader := ⟨rfl, rfl, rfl⟩

/-- The first of two bytes, and the last of 63. -/
theorem witness_ReadPayloadStoresTheByte :
    ((Instr.desPush 0x05).delivers (receiver .readPayload true 0 2 0 []).esc = some 0x55 ∧
      (0 : BitVec 6) < 2 ∧ ([] : Buffer).length = (0 : BitVec 6).toNat) ∧
    (62 : BitVec 6) < 63 ∧ (longest.take 62).length = (62 : BitVec 6).toNat := by decide

theorem witness_ReadCrcYieldsOrDrops :
    (Instr.lit 0x00).delivers (withDes (receiver .readCrc false 0 2 2 [0x55, 0x66])).des.esc = some 0x00 ∧
    (withDes (receiver .readCrc false 0 2 2 [0x55, 0x66])).des.state = .readCrc ∧
    (2 : BitVec 6).toNat ≤ ([0x55, 0x66] : Buffer).length ∧
    (⟨1, [0x55, 0x66], by decide⟩ : Frame).service = (receiver .readCrc false 0 2 2 [0x55, 0x66]).service ∧
    (⟨1, [0x55, 0x66], by decide⟩ : Frame).payload =
      (receiver .readCrc false 0 2 2 [0x55, 0x66]).payload.take (2 : BitVec 6).toNat :=
  ⟨rfl, rfl, by decide, rfl, rfl⟩

/-- A receiver that waits for the checksum of `Frame(0, [])`. -/
def awaitsChecksum (esc : Bool) : State where
  ck := Config.checksum.init
  ser := State.reset.ser
  des :=
    { state := .readCrc, esc := esc, ck := ckOf Config.checksum [0x00], service := 0, len := 0, idx := 0, payload := [] }
  result := .noFrame
  inputs := []

/-- The checksum byte yields the Frame, however it arrives. -/
theorem awaitsChecksum_yields {esc : Bool} {b : Byte} (h : contentByte esc b = some (ckOf Config.checksum [0x00])) :
    exec (.desPush b) (awaitsChecksum esc) = .next { State.reset with result := .frame ⟨0, [], by decide⟩ } := by
  apply receive_of_push (d := Deserializer.reset Config.checksum) (y := some ⟨0, [], by decide⟩)
  rw [Deserializer.push_content (x := ckOf Config.checksum [0x00]) h]
  simp [awaitsChecksum, Deserializer.body, Deserializer.bodyCrc, Deserializer.heldFrame, residueValid, step_ckOf_self]

/-- Raw bytes before, and a last one, that make a fresh receiver yield a Frame, whatever the checksum is. -/
theorem witness_YieldedFramesAreStructurallyValid :
    ∃ W b t u F f, State.reset.des = State.reset.des ∧ feed W State.reset = .next (t, F) ∧ exec (.desPush b) t = .next u ∧
      u.result = .frame f := by
  by_cases h55 : ckOf Config.checksum [0x00] = 0x55#8
  · exact ⟨[0x55, 0x00, 0xAA], 0x05, awaitsChecksum true, _, [], _, rfl, rfl, awaitsChecksum_yields (by rw [h55]; rfl), rfl⟩
  by_cases hAA : ckOf Config.checksum [0x00] = 0xAA#8
  · exact ⟨[0x55, 0x00, 0xAA], 0x0A, awaitsChecksum true, _, [], _, rfl, rfl, awaitsChecksum_yields (by rw [hAA]; rfl), rfl⟩
  · exact ⟨[0x55, 0x00], _, awaitsChecksum false, _, [], _, rfl, rfl,
      awaitsChecksum_yields (b := ckOf Config.checksum [0x00]) (by rw [contentByte, if_neg h55, if_neg (by decide), if_neg hAA]), rfl⟩

/-- A push that yields a Frame is `awaitsChecksum_yields`; this one yields none. -/
theorem witness_OnlyReadCrcYields :
    exec (.desPush 0x55) State.reset =
      .next { State.reset with des := { State.reset.des with state := .readHeader }, result := .noFrame } := rfl

/-- A push for each line of R152's table; the last line, a wrong checksum byte, exists where the checksum has one: it is
`test_push_crc_wrong`. -/
theorem witness_ReceiverTransitions :
    (withInputs [.hardwareReset]).inputs = [.hardwareReset] ∧
    (Instr.ckReset.port ≠ .des ∧ ∃ t, exec .ckReset State.reset = .next t) ∧
    (∃ t, exec (.desPush 0x55) State.reset = .next t) ∧
    (∃ t, exec (.desPush 0xAA) (withDes (receiver .readCrc true 0 1 1 [0x01])) = .next t) ∧
    (∃ t, exec (.desPush 0xAA) (withDes (receiver .readCrc false 0 1 1 [0x01])) = .next t) ∧
    ((Instr.desPush 0x00).delivers false = some 0x00 ∧ ∃ t, exec (.desPush 0x00) State.reset = .next t) ∧
    ((0x41 : Byte).extractLsb' 0 6 > 0 ∧ (Instr.desPush 0x41).delivers false = some 0x41 ∧
      ∃ t, exec (.desPush 0x41) (withDes (receiver .readHeader false 0 0 0 [])) = .next t) ∧
    ((0xC0 : Byte).extractLsb' 0 6 = 0 ∧ (Instr.desPush 0xC0).delivers false = some 0xC0 ∧
      ∃ t, exec (.desPush 0xC0) (withDes (receiver .readHeader false 0 0 0 [])) = .next t) ∧
    ((0 : BitVec 6) + 1 < 2 ∧ ∃ t, exec (.desPush 0x00) (withDes (receiver .readPayload false 0 2 0 [])) = .next t) ∧
    (1 : BitVec 6) + 1 = 2 ∧ ∃ t, exec (.desPush 0x00) (withDes (receiver .readPayload false 0 2 1 [0x01])) = .next t :=
  ⟨rfl, ⟨by decide, _, rfl⟩, ⟨_, rfl⟩, ⟨_, rfl⟩, ⟨_, rfl⟩, ⟨rfl, _, rfl⟩, ⟨by decide, rfl, _, rfl⟩, ⟨by decide, rfl, _, rfl⟩,
    ⟨by decide, _, rfl⟩, by decide, _, rfl⟩

/-- The line of R152's table that yields: a checksum byte with residue `0`. -/
theorem witness_ReceiverTransitions_yields :
    ∃ esc b, (awaitsChecksum esc).des.state = .readCrc ∧
      (Instr.desPush b).delivers esc = some (ckOf Config.checksum [0x00]) ∧
      Config.checksum.step (awaitsChecksum esc).des.ck (ckOf Config.checksum [0x00]) = 0#8 ∧
      ∃ t, exec (.desPush b) (awaitsChecksum esc) = .next t := by
  by_cases h55 : ckOf Config.checksum [0x00] = 0x55#8
  · exact ⟨true, 0x05, rfl, by rw [h55]; rfl, step_ckOf_self _ _, _, awaitsChecksum_yields (by rw [h55]; rfl)⟩
  by_cases hAA : ckOf Config.checksum [0x00] = 0xAA#8
  · exact ⟨true, 0x0A, rfl, by rw [hAA]; rfl, step_ckOf_self _ _, _, awaitsChecksum_yields (by rw [hAA]; rfl)⟩
  · have h : contentByte false (ckOf Config.checksum [0x00]) = some (ckOf Config.checksum [0x00]) := by
      rw [contentByte, if_neg h55, if_neg (by decide), if_neg hAA]
    exact ⟨false, _, rfl, h, step_ckOf_self _ _, _, awaitsChecksum_yields h⟩

theorem witness_PayloadStoreFrame :
    (Instr.lit 0x33).delivers (withDes (receiver .readPayload false 0 2 1 [0x01])).des.esc = some 0x33 ∧
    (withDes (receiver .readPayload false 0 2 1 [0x01])).des.state = .readPayload ∧ (1 : BitVec 6) < 2 ∧
    ([0x01] : Buffer).length = (1 : BitVec 6).toNat ∧
    ∃ t, exec (.lit 0x33) (withDes (receiver .readPayload false 0 2 1 [0x01])) = .next t :=
  ⟨rfl, rfl, by decide, rfl, _, rfl⟩

theorem witness_ComponentsShareNothing :
    (Instr.ckWrite 0x01).port ≠ .ser ∧ (Instr.ckWrite 0x01).port ≠ .des ∧ Instr.serDone.port ≠ .ck ∧
    (∃ t, exec (.ckWrite 0x01) State.reset = .next t) ∧ ∃ t, exec .serDone State.reset = .next t :=
  ⟨by decide, by decide, by decide, ⟨_, rfl⟩, _, rfl⟩

theorem witness_HeldFrameIsWrittenOnlyByLoad :
    (∃ t, exec .serNext (withSer (sender .payload 1 0 .empty)) = .next t) ∧ ∀ f e, Instr.serNext ≠ .serLoad f e :=
  ⟨⟨_, rfl⟩, by simp⟩

theorem witness_DifferentComponentsCommute :
    (Instr.ckWrite 0x01).port ≠ Instr.serNext.port ∧
    ∃ t u, exec (.ckWrite 0x01) State.reset = .next t ∧ exec .serNext t = .next u := ⟨by decide, _, _, rfl, rfl⟩

theorem witness_InstancesShareNothing :
    (∃ s, step (System.reset 2)[1] = .next s) ∧ (1 : Nat) ≠ 0 ∧ 1 < 2 := ⟨⟨_, rfl⟩, by decide, by decide⟩

theorem witness_ResetsAreIdempotent :
    (∃ t, exec .ckReset { State.reset with ck := 0xFF } = .next t) ∧
    (∃ t, exec .desReset (withDes (receiver .readCrc true 0 1 1 [0x01])) = .next t) ∧
    (∃ t, exec .serRestart (withSer (sender .eof 2 0 .code55)) = .next t) ∧
    (⟨1, [0x55, 0x66], by decide⟩ : Frame).payload = (withSer (sender .eof 2 0 .code55)).ser.payload :=
  ⟨⟨_, rfl⟩, ⟨_, rfl⟩, ⟨_, rfl⟩, rfl⟩

/-- A block in the middle of both directions: one payload byte sent, and a checksum awaited. -/
def busy (q : List Request) : State where
  ck := 0x00
  ser := sender .payload 1 (ckOf Config.checksum [0x42, 0x55]) .code55
  des := receiver .readCrc true (ckOf Config.checksum [0x41, 0x33]) 1 1 [0x33]
  result := .byte 0xAA
  inputs := q

theorem busy_inv (q : List Request) : (busy q).Inv := by
  refine ⟨⟨rfl, (by decide : (1 : BitVec 6) ≤ 2), ?_, ?_, ?_, ?_, ?_, ?_, ?_, ?_⟩, ⟨?_, ?_, ?_⟩⟩ <;> simp [busy, sender, receiver]
  all_goals rfl

theorem witness_StepKeepsTheInvariant : (busy [.word (.desCmd 0b01 0x55)]).Inv ∧
    ∃ t, step (busy [.word (.desCmd 0b01 0x55)]) = .next t := ⟨busy_inv _, _, rfl⟩

theorem witness_EveryInstructionCompletes : (busy []).Inv ∧ ∀ p, Instr.serNext ≠ .reserved p := ⟨busy_inv _, by simp⟩

theorem witness_StepNeverFaults : (busy [.word (.ckCmd 0b11 0x00)]).Inv ∧
    step (busy [.word (.ckCmd 0b11 0x00)]) = .refused (.reservedCommand .ck) ∧
    step (busy [.word (.wirePair 0x55 0x05)]) = .refused (.undecodable (.notAnEscapePair 0x55 0x05)) :=
  ⟨busy_inv _, rfl, rfl⟩

theorem witness_ResyncAfterGarbage :
    State.reset.des.state = .searchSof ∧ (0x55#8 : Byte) ∉ ([0x00, 0xFF, 0xAA, 0x05, 0x12, 0xAA, 0x77] : List Byte) ∧
    (withDes { State.reset.des with esc := true }).des.state = .searchSof := ⟨rfl, by decide, rfl⟩

theorem witness_RecoveryAtTheNextFrame : (busy []).Inv := busy_inv _

/-- V24's frame with the byte `10` changed into `11`, and its checksum `98` into `99`. -/
theorem witness_ChecksumRejectsOneChangedByte :
    InjByte refChecksum ∧ InjAcc refChecksum ∧ (0x11 : Byte) ≠ 0x55#8 ∧ (0x11 : Byte) ≠ 0xAA#8 ∧
    (⟨0, [0x10, 0x00, 0x00], by decide⟩ : Frame).payload = [] ++ 0x10 :: [0x00, 0x00] ∧ (0x11 : Byte) ≠ 0x10 ∧
    frameChecksum refChecksum ⟨0, [0x10, 0x00, 0x00], by decide⟩ = 0x98 ∧ (0x99 : Byte) ≠ 0x98 ∧
    State.reset.des.feed Config.checksum [] = some (State.reset.des, []) := by
  refine ⟨witness_InjectiveResidueTest, ?_, by decide, by decide, rfl, by decide, by decide +kernel, by decide, rfl⟩
  intro v v' b h
  exact xor_cancel (by simpa only [BitVec.xor_comm] using crcShift_iterate_injective h)

end Sys2Proof.Tests
end

section
/-! PROOFS. What a step does with its request, and the decoder's rejections: the step as the owner sees it (R12, R220, R241). -/

namespace Sys2Proof.Machine

section
variable {s : State} {rest : List Request}

/-- A word that decodes: its instruction is executed with the request taken off (R68). -/
theorem step_of_decode_ok {w : PortWord} {i : Instr} (hin : s.inputs = .word w :: rest)
    (hdec : decode s.des.esc w = .ok i) : step s = exec i { s with inputs := rest } := by
  simp [step, fetch_cons hin, hdec]

/-- A word with no instruction is refused (log 7). -/
theorem step_of_decode_error {w : PortWord} {r : Reject} (hin : s.inputs = .word w :: rest)
    (hdec : decode s.des.esc w = .error r) : step s = .refused (.undecodable r) := by
  simp [step, fetch_cons hin, hdec]

theorem step_of_hardwareReset (hin : s.inputs = .hardwareReset :: rest) :
    step s = .next { State.reset with inputs := rest } := by
  simp [step, fetch_cons hin, hardwareReset]

theorem step_of_no_request (hin : s.inputs = []) : step s = .next { s with result := .nothing } := by
  simp [step, fetch_nil hin, idle, State.report]

end

/-- Settles O3: the four kinds of request a step can find. -/
theorem stepRunsTheDecodedInstruction : Obligations.StepRunsTheDecodedInstruction :=
  ⟨fun _ _ _ _ => step_of_decode_ok, fun _ _ _ _ => step_of_decode_error,
    fun _ _ => step_of_hardwareReset, fun _ => step_of_no_request⟩

/-- The decoder rejects only a pair that is neither escape pair (R86; log 7). -/
theorem decode_eq_error {esc : Bool} {w : PortWord} {r : Reject} (h : decode esc w = .error r) :
    ∃ a b, r = .notAnEscapePair a b ∧ w = .wirePair a b ∧
      ¬(a = escapeFlag ∧ (b = escapeCode55 ∨ b = escapeCodeAA)) := by
  cases w
  case wirePair a b =>
    simp only [decode, decodePair] at h
    split_ifs at h with h55 hAA
    refine ⟨a, b, by simpa using h.symm, rfl, ?_⟩
    rintro ⟨ha, hb | hb⟩
    · exact h55 ⟨ha, hb⟩
    · exact hAA ⟨ha, hb⟩
  all_goals simp [decode] at h

end Sys2Proof.Machine
end

section
/-! PROOFS. Storing one more payload byte leaves every other position as it was (R11, R147). -/

namespace Sys2Proof.Machine

section
variable {buf : Buffer} {len i j : BitVec 6} {v : Byte}

/-- The position just stored reads as the byte stored. -/
theorem memRead_append_same (hlt : i < len) (hlen : buf.length = i.toNat) : memRead (buf ++ [v]) len i = some v := by
  rw [memRead_eq_some, ← hlen]
  exact ⟨hlt, by simp⟩

/-- Every other position reads as before: those below were stored earlier, those above are not stored yet. -/
theorem memRead_append_of_ne (hlen : buf.length = i.toNat) (hne : j ≠ i) :
    memRead (buf ++ [v]) len j = memRead buf len j := by
  have hne' : j.toNat ≠ buf.length := fun h => hne (BitVec.eq_of_toNat_eq (h.trans hlen))
  have hget : (buf ++ [v])[j.toNat]? = buf[j.toNat]? := by
    rcases Nat.lt_or_gt_of_ne hne' with hbelow | habove
    · exact List.getElem?_append_left hbelow
    · rw [List.getElem?_eq_none (by simpa using habove), List.getElem?_eq_none habove.le]
  rw [memRead, memRead, hget]

end

/-- In `ReadPayload` a content byte is stored at `d_idx` and nothing is yielded (R147). -/
theorem exec_of_delivers_readPayload {i : Instr} {x : Byte} {s : State} (hx : i.delivers s.des.esc = some x)
    (hst : s.des.state = .readPayload) (hlt : s.des.idx < s.des.len) (hlen : s.des.payload.length = s.des.idx.toNat) :
    exec i s = .next
      (s.putDes (s.des.clearEsc.bodyPayload Config.checksum x (s.des.payload ++ [x])) .noFrame) :=
  exec_of_delivers hx (Deserializer.body_readPayload (d := s.des.clearEsc) hst hlt hlen)

/-- Settles O43: the state after the store is known, and its buffer is the old one with the byte appended. -/
theorem payloadStoreFrame : Obligations.PayloadStoreFrame := by
  unfold Obligations.PayloadStoreFrame
  intro i s t x hx hst hlt hlen hexec
  rw [exec_of_delivers_readPayload hx hst hlt hlen, Host.Outcome.next.injEq] at hexec
  subst hexec
  exact ⟨memRead_append_same hlt hlen, fun j hj => memRead_append_of_ne hlen hj, fun _ => rfl⟩

end Sys2Proof.Machine
end

section
/-! PROOFS. The serializer's invariants (R31): how they are established in each phase, and that every operation keeps them. -/

namespace Sys2Proof.Machine

section
variable {c : Checksum} {z : Serializer}

/-- The invariants before the header is sent (R31 item 3). -/
theorem Serializer.Inv.of_start (hlen : z.payload.length = z.len.toNat) (hph : z.phase = .sof ∨ z.phase = .header)
    (hidx : z.idx = 0) (hck : z.ck = c.init) (hpend : z.pend = .empty) (hfault : z.fault = false) : z.Inv c where
  payload_length := hlen
  idx_le_len := by simp [hidx, BitVec.le_def]
  payload_idx h := by simp [h] at hph
  start _ := ⟨hidx, hck, hpend⟩
  pend_phase h := absurd hpend h
  fault_done h := by simp [hfault] at h
  folded h := by simp [h] at hph
  sent h := by rcases h with h | h <;> simp [h] at hph
  eof_wanted h := by simp [h] at hph
  ended h := by simp [h] at hph

/-- The invariants while payload bytes are still to come (R31 item 2). -/
theorem Serializer.Inv.of_payload (hlen : z.payload.length = z.len.toNat) (hph : z.phase = .payload)
    (hidx : z.idx < z.len) (hck : z.ck = ckOf c (z.headerByte :: z.payload.take z.idx.toNat))
    (hfault : z.fault = false) : z.Inv c where
  payload_length := hlen
  idx_le_len := BitVec.le_of_lt hidx
  payload_idx _ := hidx
  start h := by simp [hph] at h
  pend_phase _ := by simp [hph]
  fault_done h := by simp [hfault] at h
  folded _ := hck
  sent h := by simp [hph] at h
  eof_wanted h := by simp [hph] at h
  ended h := by simp [hph] at h

/-- The invariants once the whole payload is folded: the checksum, the EOF flag or nothing is to come (R31 item 6). -/
theorem Serializer.Inv.of_complete (hlen : z.payload.length = z.len.toNat) (hall : z.Complete c)
    (hph : z.phase = .crc ∨ (z.phase = .eof ∧ z.eof = true) ∨ z.phase = .ended)
    (hfault : z.fault = false ∨ (z.phase = .ended ∧ z.pend = .empty)) : z.Inv c where
  payload_length := hlen
  idx_le_len := hall.1 ▸ BitVec.le_refl _
  payload_idx h := by simp [h] at hph
  start h := by rcases h with h | h <;> simp [h] at hph
  pend_phase _ := by rcases hph with h | ⟨h, -⟩ | h <;> simp [h]
  fault_done h := hfault.resolve_left (by simp [h])
  folded h := by simp [h] at hph
  sent _ := hall
  eof_wanted h := by simpa [h] using hph
  ended _ := .inl hall

/-- While anything is still to be sent, no overrun is recorded (R31 item 5). -/
theorem Serializer.Inv.fault_eq_false (h : z.Inv c) (hmore : z.phase = .ended → z.pend ≠ .empty) : z.fault = false := by
  by_contra hf
  obtain ⟨hph, hpend⟩ := h.fault_done (by simpa using hf)
  exact hmore hph hpend

theorem Serializer.begin_inv (hlen : z.payload.length = z.len.toNat) : (z.begin c).Inv c :=
  .of_start hlen (.inl rfl) rfl rfl rfl rfl

/-- A loaded Frame's length fits `s_len` (R40). -/
theorem Serializer.load_inv (f : Frame) (e : Bool) : (z.load c f e).Inv c := by
  refine begin_inv ?_
  have hbound := f.bound
  simp only [BitVec.toNat_ofNat]
  omega

theorem Serializer.restart_inv (h : z.Inv c) : (z.restart c).Inv c := begin_inv h.payload_length

/-- Arm PENDING: a code is pending only past the header, and what is folded does not change (R122). -/
theorem Serializer.nextPending_inv (h : z.Inv c) (hpend : z.pend ≠ .empty) (code : Byte) :
    (z.nextPending code).1.Inv c := by
  obtain ⟨hsof, hheader⟩ := h.pend_phase hpend
  have hfault := h.fault_eq_false fun _ => hpend
  have complete (hall : z.Complete c) (hph : z.phase = .crc ∨ (z.phase = .eof ∧ z.eof = true) ∨ z.phase = .ended) :
      (z.nextPending code).1.Inv c :=
    .of_complete h.payload_length hall hph (.inl hfault)
  cases hph : z.phase
  case sof => exact absurd hph hsof
  case header => exact absurd hph hheader
  case payload => exact .of_payload h.payload_length hph (h.payload_idx hph) (h.folded hph) hfault
  case crc => exact complete (h.sent (.inl hph)) (.inl hph)
  case eof => exact complete (h.sent (.inr hph)) (.inr (.inl ⟨hph, h.eof_wanted hph⟩))
  case ended =>
    rcases h.ended hph with hall | hunused
    · exact complete hall (.inr (.inr hph))
    · exact absurd (congrArg Serializer.pend hunused) hpend

theorem Serializer.nextSof_inv (h : z.Inv c) (hph : z.phase = .sof) : z.nextSof.1.Inv c := by
  obtain ⟨hidx, hck, hpend⟩ := h.start (.inl hph)
  exact .of_start h.payload_length (.inr rfl) hidx hck hpend (h.fault_eq_false (by simp [hph]))

/-- Arm HEADER: the header is folded first; with no payload the checksum is next (R124). -/
theorem Serializer.nextHeader_inv (h : z.Inv c) (hph : z.phase = .header) : (z.nextHeader c).1.Inv c := by
  obtain ⟨hidx, hck, -⟩ := h.start (.inr hph)
  have hfault := h.fault_eq_false (by simp [hph])
  have htake : z.payload.take z.idx.toNat = [] := by simp [hidx]
  have hfold : ckWrite c z.ck z.headerByte = ckOf c (z.headerByte :: z.payload.take z.idx.toNat) := by
    rw [hck, htake, ckOf_singleton]
  by_cases h0 : z.len = 0
  · have hnil : z.payload = [] := List.eq_nil_of_length_eq_zero (by simp [h.payload_length, h0])
    rw [htake, ← hnil] at hfold
    exact .of_complete h.payload_length ⟨hidx.trans h0.symm, hfold⟩ (.inl (if_pos h0)) (.inl hfault)
  · refine .of_payload h.payload_length (if_neg h0) ?_ hfold hfault
    simp only [nextHeader, emit, hidx]
    bv_omega

/-- An index below a length does not wrap when it is counted up. -/
theorem toNat_add_one_of_lt {i n : BitVec 6} (h : i < n) : (i + 1).toNat = i.toNat + 1 := by
  bv_omega

/-- Under the invariants the byte arm PAYLOAD reads is stored (R31 items 1 and 2, R64). -/
theorem Serializer.Inv.memRead_isSome (h : z.Inv c) (hph : z.phase = .payload) :
    ∃ b, memRead z.payload z.len z.idx = some b := by
  have hidx := h.payload_idx hph
  have hbound : z.idx.toNat < z.payload.length := h.payload_length ▸ hidx
  exact ⟨_, memRead_eq_some.mpr ⟨hidx, List.getElem?_eq_getElem hbound⟩⟩

/-- Arm PAYLOAD: one more byte is folded; after the last the checksum is next (R125). -/
theorem Serializer.nextPayload_inv {b : Byte} (h : z.Inv c) (hph : z.phase = .payload)
    (hread : memRead z.payload z.len z.idx = some b) : (z.nextPayload c b).1.Inv c := by
  obtain ⟨hidx, hget⟩ := memRead_eq_some.mp hread
  have hfault := h.fault_eq_false (by simp [hph])
  have hnext := toNat_add_one_of_lt hidx
  have hfold : ckWrite c z.ck b = ckOf c (z.headerByte :: z.payload.take (z.idx + 1).toNat) := by
    rw [h.folded hph, hnext, List.take_add_one, hget, ← List.cons_append, Option.toList_some,
      ckOf_append_singleton]
  by_cases hlast : z.idx + 1 = z.len
  · rw [hlast, ← h.payload_length, List.take_length] at hfold
    exact .of_complete h.payload_length ⟨hlast, hfold⟩ (.inl (if_pos hlast)) (.inl hfault)
  · refine .of_payload h.payload_length (if_neg hlast) ?_ hfold hfault
    simp only [nextPayload, emit]
    bv_omega

/-- Arm CRC: the checksum is sent and not folded (R126). -/
theorem Serializer.nextCrc_inv (h : z.Inv c) (hph : z.phase = .crc) : z.nextCrc.1.Inv c := by
  have hfault := h.fault_eq_false (by simp [hph])
  refine .of_complete h.payload_length (h.sent (.inl hph)) (.inr ?_) (.inl hfault)
  cases heof : z.eof <;> simp [nextCrc, emit, heof]

theorem Serializer.nextEof_inv (h : z.Inv c) (hph : z.phase = .eof) (hpend : z.pend = .empty) : z.nextEof.1.Inv c :=
  .of_complete h.payload_length (h.sent (.inr hph)) (.inr (.inr rfl)) (.inr ⟨rfl, hpend⟩)

/-- Arm END changes the fault bit only (R128). -/
theorem Serializer.nextEnd_inv (h : z.Inv c) (hph : z.phase = .ended) (hpend : z.pend = .empty) :
    z.nextEnd.1.Inv c :=
  { h with fault_done := fun _ => ⟨hph, hpend⟩ }

/-- Every answer of `SER.NEXT` keeps the invariants. -/
theorem Serializer.next_inv {r : Serializer × Pull} (h : z.Inv c) (hr : z.next c = some r) : r.1.Inv c := by
  obtain ⟨code, hcode, rfl⟩ | ⟨hpend, ⟨hph, rfl⟩ | ⟨hph, rfl⟩ | ⟨hph, b, hread, rfl⟩ | ⟨hph, rfl⟩ | ⟨hph, rfl⟩ |
    ⟨hph, rfl⟩⟩ := next_cases hr
  · exact nextPending_inv h (fun he => by simp [he, Pend.code] at hcode) code
  · exact nextSof_inv h hph
  · exact nextHeader_inv h hph
  · exact nextPayload_inv h hph hread
  · exact nextCrc_inv h hph
  · exact nextEof_inv h hph hpend
  · exact nextEnd_inv h hph hpend

/-- Under the invariants `SER.NEXT` answers: it never reads out of range (R64). -/
theorem Serializer.Inv.next_isSome (h : z.Inv c) : ∃ r, z.next c = some r := by
  refine Option.ne_none_iff_exists'.mp fun hnone => ?_
  obtain ⟨-, hph, hread⟩ := next_eq_none.mp hnone
  obtain ⟨b, hb⟩ := h.memRead_isSome hph
  simp [hread] at hb

end

end Sys2Proof.Machine
end

section
/-! PROOFS. The deserializer's invariants (R38): every raw byte is answered and keeps them. -/

namespace Sys2Proof.Machine

section
variable {c : Checksum} {d : Deserializer} {b x : Byte}

/-- The invariants while a frame arrives (R38): the bytes stored are those counted, and folded after their header. -/
theorem Deserializer.Inv.of_frame
    (hst : d.state = .readPayload ∧ d.idx < d.len ∨ d.state = .readCrc ∧ d.idx = d.len)
    (hlen : d.payload.length = d.idx.toNat) (hck : d.ck = ckOf c (pack d.service d.len :: d.payload)) : d.Inv c where
  idle h := by rcases h with h | h <;> simp [h] at hst
  readPayload h := ⟨by simpa [h] using hst, hlen, hck⟩
  readCrc h := ⟨by simpa [h] using hst, hlen, hck⟩

theorem Deserializer.reset_inv : (Deserializer.reset c).Inv c where
  idle _ := ⟨rfl, rfl, rfl, rfl, rfl⟩
  readPayload h := by simp [reset] at h
  readCrc h := by simp [reset] at h

theorem Deserializer.takeFlag_inv : (d.takeFlag c).Inv c where
  idle _ := ⟨rfl, rfl, rfl, rfl, rfl⟩
  readPayload h := by simp [takeFlag] at h
  readCrc h := by simp [takeFlag] at h

/-- No invariant speaks of the escape bit (R38). -/
theorem Deserializer.Inv.setEsc (h : d.Inv c) (e : Bool) : ({ d with esc := e } : Deserializer).Inv c :=
  { h with }

/-- `pack` puts back together what `unpack` takes apart (R83, R84). -/
theorem pack_headerService_headerLength (h : Byte) : pack (headerService h) (headerLength h) = h := by
  revert h; decide

/-- The header is folded first; with no payload the checksum is next (R146). -/
theorem Deserializer.bodyHeader_inv (h : d.Inv c) (hst : d.state = .readHeader) : (d.bodyHeader c x).Inv c := by
  obtain ⟨hck, -⟩ := h.idle (.inr hst)
  have hfold : ckWrite c d.ck x = ckOf c [pack (headerService x) (headerLength x)] := by
    rw [pack_headerService_headerLength, hck, ckOf_singleton]
  refine .of_frame ?_ rfl hfold
  by_cases hpos : headerLength x > 0
  · exact .inl ⟨if_pos hpos, hpos⟩
  · exact .inr ⟨if_neg hpos, by simp only [bodyHeader]; bv_omega⟩

/-- One more payload byte is stored and folded; after the last the checksum is next (R147). -/
theorem Deserializer.bodyPayload_inv (h : d.Inv c) (hst : d.state = .readPayload) :
    (d.bodyPayload c x (d.payload ++ [x])).Inv c := by
  obtain ⟨hidx, hlen, hck⟩ := h.readPayload hst
  have hstored : (d.payload ++ [x]).length = (d.idx + 1).toNat := by
    rw [toNat_add_one_of_lt hidx, List.length_append, hlen, List.length_singleton]
  have hfold : ckWrite c d.ck x = ckOf c (pack d.service d.len :: (d.payload ++ [x])) := by
    rw [hck, ← List.cons_append, ckOf_append_singleton]
  refine .of_frame ?_ hstored hfold
  by_cases hlast : d.idx + 1 = d.len
  · exact .inr ⟨if_pos hlast, hlast⟩
  · exact .inl ⟨if_neg hlast, by simp only [bodyPayload]; bv_omega⟩

/-- Under the invariants the whole Frame announced is stored when the checksum byte arrives (R38 item 3, R148). -/
theorem Deserializer.bodyCrc_isSome (h : d.Inv c) (hst : d.state = .readCrc) :
    ∃ y, d.bodyCrc c x = some (reset c, y) := by
  obtain ⟨hidx, hlen, -⟩ := h.readCrc hst
  have hheld : d.len.toNat ≤ d.payload.length := by rw [hlen, hidx]
  unfold bodyCrc
  split
  · simp [heldFrame, hheld]
  · simp

/-- A content byte is answered and keeps the invariants (R145 to R148). -/
theorem Deserializer.Inv.body (h : d.Inv c) (x : Byte) : ∃ d' y, d.body c x = some (d', y) ∧ d'.Inv c := by
  cases hst : d.state
  case searchSof => exact ⟨_, _, body_searchSof hst, h⟩
  case readHeader => exact ⟨_, _, body_readHeader hst, bodyHeader_inv h hst⟩
  case readPayload =>
    obtain ⟨hidx, hlen, -⟩ := h.readPayload hst
    exact ⟨_, _, body_readPayload hst hidx hlen, bodyPayload_inv h hst⟩
  case readCrc =>
    obtain ⟨y, hy⟩ := bodyCrc_isSome (x := x) h hst
    exact ⟨_, y, (body_readCrc hst).trans hy, reset_inv⟩

/-- A raw byte is answered and keeps the invariants (R140). -/
theorem Deserializer.Inv.push (h : d.Inv c) (b : Byte) : ∃ d' y, d.push c b = some (d', y) ∧ d'.Inv c := by
  obtain rfl | ⟨hesc, rfl⟩ | ⟨hesc, hflag, hbad⟩ | ⟨x, hx⟩ := raw_cases d.esc b
  · exact ⟨_, _, push_flag, takeFlag_inv⟩
  · exact ⟨_, _, push_escape hesc, h.setEsc true⟩
  · exact ⟨_, _, push_badCode hesc hflag hbad, reset_inv⟩
  · rw [push_content hx]
    exact (h.setEsc false).body x

end

end Sys2Proof.Machine
end

section
/-! PROOFS. The block's invariants: every instruction but RESERVED completes and keeps them (R12, R64). -/

namespace Sys2Proof.Machine

/-- The outcome is a next state with the invariants, and the requests still to come are those of `s`. -/
def CompletesFrom (s : State) (o : Out) : Prop := ∃ t, o = .next t ∧ t.Inv ∧ t.inputs = s.inputs

section
variable {s : State}

theorem State.Inv.putCk (h : s.Inv) (v : Byte) (r : Result) : (s.putCk v r).Inv := ⟨h.ser, h.des⟩

theorem State.Inv.putSer (h : s.Inv) {z : Serializer} (hz : z.Inv Config.checksum) (r : Result) : (s.putSer z r).Inv :=
  ⟨hz, h.des⟩

theorem State.Inv.putDes (h : s.Inv) {d : Deserializer} (hd : d.Inv Config.checksum) (r : Result) :
    (s.putDes d r).Inv :=
  ⟨h.ser, hd⟩

theorem State.Inv.report (h : s.Inv) (r : Result) : (s.report r).Inv := ⟨h.ser, h.des⟩

/-- The invariants do not speak of the requests. -/
theorem State.Inv.setInputs (h : s.Inv) (qs : List Request) : ({ s with inputs := qs } : State).Inv := ⟨h.ser, h.des⟩

/-- A raw byte that arrives is an atomic step that completes (R12, R140). -/
theorem State.Inv.receive (h : s.Inv) (b : Byte) : CompletesFrom s (receive b s) := by
  obtain ⟨d, y, hpush, hd⟩ := h.des.push b
  exact ⟨_, receive_of_push hpush, h.putDes hd _, rfl⟩

theorem State.Inv.receiveAll (h : s.Inv) (W : List Byte) : CompletesFrom s (receiveAll W s) := by
  induction W generalizing s with
  | nil => exact ⟨s, rfl, h, rfl⟩
  | cons b rest ih =>
    obtain ⟨s', hs', hinv', hin'⟩ := h.receive b
    obtain ⟨t, ht, hinv, hin⟩ := ih hinv'
    exact ⟨t, by simpa [Machine.receiveAll, hs'] using ht, hinv, hin.trans hin'⟩

theorem State.Inv.execSerNext (h : s.Inv) : CompletesFrom s (execSerNext s) := by
  obtain ⟨⟨z, p⟩, hnext⟩ := h.ser.next_isSome
  exact ⟨_, execSerNext_of_next hnext, h.putSer (Serializer.next_inv h.ser hnext) _, rfl⟩

/-- Under the invariants every instruction but RESERVED completes, by the component it acts on. -/
theorem State.Inv.exec (h : s.Inv) {i : Instr} (hi : ∀ p, i ≠ .reserved p) : CompletesFrom s (exec i s) := by
  cases hport : i.port
  case des =>
    obtain ⟨b, hb⟩ | ⟨W, -, hW⟩ | rfl | rfl | rfl := port_des_cases hport
    · exact exec_of_rawByte hb s ▸ h.receive b
    · exact hW s ▸ h.receiveAll W
    · exact ⟨_, rfl, h.putDes Deserializer.reset_inv _, rfl⟩
    · exact ⟨_, rfl, h.report _, rfl⟩
    · exact absurd rfl (hi .des)
  case ck =>
    cases i <;> simp [Instr.port] at hport
    case ckWrite => exact ⟨_, rfl, h.putCk _ _, rfl⟩
    case ckReset => exact ⟨_, rfl, h.putCk _ _, rfl⟩
    case ckValue => exact ⟨_, rfl, h.report _, rfl⟩
    case nop => exact ⟨_, rfl, h.report _, rfl⟩
    case reserved p => exact absurd rfl (hi p)
  case ser =>
    cases i <;> simp [Instr.port] at hport
    case serNext => exact h.execSerNext
    case serLoad f e => exact ⟨_, rfl, h.putSer (Serializer.load_inv f e) _, rfl⟩
    case serRestart => exact ⟨_, rfl, h.putSer (Serializer.restart_inv h.ser) _, rfl⟩
    case serDone => exact ⟨_, rfl, h.report _, rfl⟩
    case nop => exact ⟨_, rfl, h.report _, rfl⟩
    case reserved p => exact absurd rfl (hi p)

end

/-- Settles O52: each component's operations keep the invariants of that component. -/
theorem everyInstructionCompletes : Obligations.EveryInstructionCompletes := fun _ _ h hi => h.exec hi

/-- How a step of a state with the invariants ends: with a next state, or refused at the reserved command or at a pair that is
no escape pair. -/
theorem State.Inv.step_cases {s : State} (h : s.Inv) :
    (∃ t, step s = .next t) ∨
      ∃ w rest, s.inputs = .word w :: rest ∧
        ((∃ p, step s = .refused (.reservedCommand p) ∧ decode s.des.esc w = .ok (.reserved p)) ∨
          ∃ r, step s = .refused (.undecodable r) ∧ decode s.des.esc w = .error r) := by
  match hin : s.inputs with
  | [] => exact .inl ⟨_, step_of_no_request hin⟩
  | .hardwareReset :: rest => exact .inl ⟨_, step_of_hardwareReset hin⟩
  | .word w :: rest =>
    cases hdec : decode s.des.esc w with
    | error r => exact .inr ⟨w, rest, rfl, .inr ⟨r, step_of_decode_error hin hdec, hdec⟩⟩
    | ok i =>
      rw [step_of_decode_ok hin hdec]
      by_cases hres : ∃ p, i = .reserved p
      · obtain ⟨p, rfl⟩ := hres
        exact .inr ⟨w, rest, rfl, .inl ⟨p, rfl, hdec⟩⟩
      · obtain ⟨t, ht, -⟩ := (h.setInputs rest).exec (not_exists.mp hres)
        exact .inl ⟨t, ht⟩

/-- Settles O53: no end of a step is a fault, and each refusal names its word. -/
theorem stepNeverFaults : Obligations.StepNeverFaults := by
  unfold Obligations.StepNeverFaults
  intro s h
  obtain ⟨t, hstep⟩ | ⟨w, rest, hin, ⟨p, hstep, hdec⟩ | ⟨r, hstep, hdec⟩⟩ := h.step_cases
  · simp [hstep]
  · refine ⟨by simp [hstep], fun r' hr' => ⟨w, rest, hin, .inl ⟨p, ?_, hdec⟩⟩⟩
    simpa [hstep] using hr'.symm
  · obtain ⟨a, b, rfl, rfl, hne⟩ := decode_eq_error hdec
    refine ⟨by simp [hstep], fun r' hr' => ⟨_, rest, hin, .inr ⟨a, b, ?_, rfl, hne⟩⟩⟩
    simpa [hstep] using hr'.symm

end Sys2Proof.Machine
end

section
/-! PROOFS. What an instruction that completes can change: the registers of its own component only (R20, R22). -/

namespace Sys2Proof.Machine

section
variable {i : Instr} {s t : State}

/-- An instruction of the standalone accumulator writes nothing but `ck` and the result (R110 to R112). -/
theorem exec_next_of_port_ck (hport : i.port = .ck) (hexec : exec i s = .next t) : ∃ v r, t = s.putCk v r := by
  cases i <;> simp [Instr.port] at hport
  case ckWrite => exact ⟨_, _, (Host.Outcome.next.inj hexec).symm⟩
  case ckReset => exact ⟨_, _, (Host.Outcome.next.inj hexec).symm⟩
  case ckValue => exact ⟨s.ck, _, (Host.Outcome.next.inj hexec).symm⟩
  case nop => exact ⟨s.ck, _, (Host.Outcome.next.inj hexec).symm⟩
  case reserved => exact nomatch hexec

/-- What each instruction of the serializer does, by the three that write a register of it (R120, R121, R130, R132). -/
theorem exec_next_of_port_ser (hport : i.port = .ser) (hexec : exec i s = .next t) :
    (i = .serNext ∧ ∃ z p, s.ser.next Config.checksum = some (z, p) ∧ t = s.putSer z p.result) ∨
    (∃ f e, i = .serLoad f e ∧ t = s.putSer (s.ser.load Config.checksum f e) .nothing) ∨
    (i = .serRestart ∧ t = s.putSer (s.ser.restart Config.checksum) .nothing) ∨
    ((i = .serDone ∨ i = .nop .ser) ∧ ∃ r, t = s.report r) := by
  cases i <;> simp [Instr.port] at hport
  case serNext => exact .inl ⟨rfl, execSerNext_next hexec⟩
  case serLoad f e => exact .inr (.inl ⟨f, e, rfl, (Host.Outcome.next.inj hexec).symm⟩)
  case serRestart => exact .inr (.inr (.inl ⟨rfl, (Host.Outcome.next.inj hexec).symm⟩))
  case serDone => exact .inr (.inr (.inr ⟨.inl rfl, _, (Host.Outcome.next.inj hexec).symm⟩))
  case nop => exact .inr (.inr (.inr ⟨.inr (hport ▸ rfl), _, (Host.Outcome.next.inj hexec).symm⟩))
  case reserved => exact nomatch hexec

/-- An instruction of the serializer writes nothing but the serializer and the result. -/
theorem exec_next_putSer (hport : i.port = .ser) (hexec : exec i s = .next t) : ∃ z r, t = s.putSer z r := by
  obtain ⟨-, z, p, -, rfl⟩ | ⟨f, e, -, rfl⟩ | ⟨-, rfl⟩ | ⟨-, r, rfl⟩ := exec_next_of_port_ser hport hexec
  · exact ⟨_, _, rfl⟩
  · exact ⟨_, _, rfl⟩
  · exact ⟨_, _, rfl⟩
  · exact ⟨s.ser, r, rfl⟩

/-- Whatever arrives at the receiver writes nothing but the deserializer and the result (R140, R150). -/
theorem exec_next_of_port_des (hport : i.port = .des) (hexec : exec i s = .next t) : ∃ d r, t = s.putDes d r := by
  obtain ⟨b, hb⟩ | ⟨W, -, hW⟩ | rfl | rfl | rfl := port_des_cases hport
  · rw [exec_of_rawByte hb] at hexec
    obtain ⟨d, y, -, rfl⟩ := receive_next hexec
    exact ⟨_, _, rfl⟩
  · rw [hW] at hexec
    obtain ⟨hck, hser, hin⟩ := receiveAll_frame hexec
    exact ⟨t.des, t.result, by rw [State.putDes, ← hck, ← hser, ← hin]⟩
  · exact ⟨_, _, (Host.Outcome.next.inj hexec).symm⟩
  · exact ⟨s.des, _, (Host.Outcome.next.inj hexec).symm⟩
  · exact nomatch hexec

end

/-- Settles O45: each instruction writes back through the update of its own component. -/
theorem componentsShareNothing : Obligations.ComponentsShareNothing := by
  unfold Obligations.ComponentsShareNothing
  intro i s t hexec
  cases hport : i.port
  case ck =>
    obtain ⟨v, r, rfl⟩ := exec_next_of_port_ck hport hexec
    simp
  case ser =>
    obtain ⟨z, r, rfl⟩ := exec_next_putSer hport hexec
    simp
  case des =>
    obtain ⟨d, r, rfl⟩ := exec_next_of_port_des hport hexec
    simp

end Sys2Proof.Machine
end

section
/-! PROOFS. What becomes of the serializer's Frame and fault bit: which instruction writes them (R23, R24, R29). -/

namespace Sys2Proof.Machine

/-- Everything an instruction can do to the serializer: one of its three operations, or nothing. -/
theorem exec_next_ser_cases {i : Instr} {s t : State} (hexec : exec i s = .next t) :
    (i = .serNext ∧ ∃ p, s.ser.next Config.checksum = some (t.ser, p)) ∨
    (∃ f e, i = .serLoad f e ∧ t.ser = s.ser.load Config.checksum f e) ∨
    (i = .serRestart ∧ t.ser = s.ser.restart Config.checksum) ∨
    (i ≠ .serNext ∧ (∀ f e, i ≠ .serLoad f e) ∧ i ≠ .serRestart ∧ t.ser = s.ser) := by
  by_cases hport : i.port = .ser
  · obtain ⟨rfl, z, p, hnext, rfl⟩ | ⟨f, e, rfl, rfl⟩ | ⟨rfl, rfl⟩ | ⟨rfl | rfl, r, rfl⟩ :=
      exec_next_of_port_ser hport hexec
    · exact .inl ⟨rfl, p, hnext⟩
    · exact .inr (.inl ⟨f, e, rfl, rfl⟩)
    · exact .inr (.inr (.inl ⟨rfl, rfl⟩))
    · simp
    · simp
  · obtain ⟨-, hser, -⟩ := componentsShareNothing i s t hexec
    have notSer {j : Instr} (hj : j.port = .ser) : i ≠ j := fun hij => hport (hij ▸ hj)
    exact .inr (.inr (.inr ⟨notSer rfl, fun _ _ => notSer rfl, notSer rfl, hser hport⟩))

section
variable {c : Checksum} {z : Serializer} {r : Serializer × Pull}

/-- No arm of `SER.NEXT` writes the Frame held or `send_eof` (R71). -/
theorem Serializer.next_held_frame (hnext : z.next c = some r) :
    r.1.service = z.service ∧ r.1.len = z.len ∧ r.1.payload = z.payload ∧ r.1.eof = z.eof := by
  obtain ⟨code, -, rfl⟩ | ⟨-, ⟨-, rfl⟩ | ⟨-, rfl⟩ | ⟨-, b, -, rfl⟩ | ⟨-, rfl⟩ | ⟨-, rfl⟩ | ⟨-, rfl⟩⟩ := next_cases hnext
  all_goals exact ⟨rfl, rfl, rfl, rfl⟩

/-- A serializer with a code pending, or in a phase before END, is not done (R29). -/
theorem Serializer.isDone_eq_false (hmore : z.phase = .ended → z.pend ≠ .empty) : z.isDone = false := by
  rw [← Bool.not_eq_true, isDone_iff]
  exact fun ⟨hph, hpend⟩ => hmore hph hpend

/-- `SER.NEXT` sets the fault bit when there is nothing left to send, and otherwise keeps it (R29, R128). -/
theorem Serializer.next_fault (hnext : z.next c = some r) : r.1.fault = (z.fault || z.isDone) := by
  have kept (hfault : r.1.fault = z.fault) (hmore : z.phase = .ended → z.pend ≠ .empty) :
      r.1.fault = (z.fault || z.isDone) := by
    rw [isDone_eq_false hmore, Bool.or_false, hfault]
  obtain ⟨code, hcode, rfl⟩ | ⟨hpend, ⟨hph, rfl⟩ | ⟨hph, rfl⟩ | ⟨hph, b, -, rfl⟩ | ⟨hph, rfl⟩ | ⟨hph, rfl⟩ |
    ⟨hph, rfl⟩⟩ := next_cases hnext
  · exact kept rfl fun _ hpend => by simp [hpend, Pend.code] at hcode
  · exact kept rfl (by simp [hph])
  · exact kept rfl (by simp [hph])
  · exact kept rfl (by simp [hph])
  · exact kept rfl (by simp [hph])
  · exact kept rfl (by simp [hph])
  · rw [(isDone_iff z).mpr ⟨hph, hpend⟩, Bool.or_true]
    rfl

end

/-- Settles O22: of the three operations on the serializer, LOAD and RESTART clear the bit and NEXT sets it when done. -/
theorem faultBitLifetime : Obligations.FaultBitLifetime := by
  unfold Obligations.FaultBitLifetime
  refine ⟨fun s rest hin => ⟨_, step_of_hardwareReset hin, rfl⟩, fun s => s.ser.isDone_iff, fun i s t hexec => ?_⟩
  obtain ⟨rfl, p, hnext⟩ | ⟨f, e, rfl, hser⟩ | ⟨rfl, hser⟩ | ⟨hnext, hload, hrestart, hser⟩ := exec_next_ser_cases hexec
  · have hfault : t.ser.fault = (s.ser.fault || s.serDone) := Serializer.next_fault hnext
    simp +contextual [hfault]
  · simp [hser, Serializer.load]
  · simp [hser, Serializer.restart]
  · simp [hnext, hload, hrestart, hser]

/-- Settles O46: NEXT and RESTART keep the registers that hold the Frame, and nothing else reaches the serializer. -/
theorem heldFrameIsWrittenOnlyByLoad : Obligations.HeldFrameIsWrittenOnlyByLoad := by
  unfold Obligations.HeldFrameIsWrittenOnlyByLoad
  intro i s t hexec hnoload
  have hheld : t.ser.service = s.ser.service ∧ t.ser.len = s.ser.len ∧ t.ser.payload = s.ser.payload ∧
      t.ser.eof = s.ser.eof := by
    obtain ⟨-, p, hnext⟩ | ⟨f, e, hload, -⟩ | ⟨-, hser⟩ | ⟨-, -, -, hser⟩ := exec_next_ser_cases hexec
    · exact Serializer.next_held_frame hnext
    · exact absurd hload (hnoload f e)
    · simp [hser, Serializer.restart]
    · simp [hser]
  obtain ⟨hservice, hlen, hpayload, heof⟩ := hheld
  exact ⟨hservice, hlen, hpayload, heof, fun j => by rw [hpayload, hlen]⟩

end Sys2Proof.Machine
end

section
/-! PROOFS. The state after hardware reset, and the invariants from there on (R30, R31, R37, R38). -/

namespace Sys2Proof.Machine

/-- After hardware reset the serializer is in END with no Frame loaded (R30, R31 item 6). -/
theorem Serializer.reset_inv {c : Checksum} : (Serializer.reset c).Inv c where
  payload_length := rfl
  idx_le_len := BitVec.le_refl _
  payload_idx h := by simp [reset] at h
  start h := by simp [reset] at h
  pend_phase h := absurd rfl h
  fault_done h := by simp [reset] at h
  folded h := by simp [reset] at h
  sent h := by simp [reset] at h
  eof_wanted h := by simp [reset] at h
  ended _ := .inr rfl

theorem State.reset_inv : State.reset.Inv := ⟨Serializer.reset_inv, Deserializer.reset_inv⟩

/-- Settles O50: each sequencer's reset state meets its invariants. -/
theorem invariantHoldsAtReset : Obligations.InvariantHoldsAtReset := State.reset_inv

/-- An instruction that completes keeps the invariants; RESERVED never completes (R95). -/
theorem State.Inv.exec_next {i : Instr} {s t : State} (h : s.Inv) (hexec : Machine.exec i s = .next t) : t.Inv := by
  have hnotReserved : ∀ p, i ≠ .reserved p := by
    rintro p rfl
    exact nomatch hexec
  obtain ⟨t', ht', hinv, -⟩ := h.exec hnotReserved
  rw [hexec, Host.Outcome.next.injEq] at ht'
  exact ht' ▸ hinv

/-- Everything a step that answers a next state can have done: nothing requested, a hardware reset, or an instruction. -/
theorem step_next_cases {s t : State} (hstep : step s = .next t) :
    (s.inputs = [] ∧ t = s.report .nothing) ∨
    (∃ rest, s.inputs = .hardwareReset :: rest ∧ t = { State.reset with inputs := rest }) ∨
    ∃ w rest i, s.inputs = .word w :: rest ∧ decode s.des.esc w = .ok i ∧ exec i { s with inputs := rest } = .next t := by
  match hin : s.inputs with
  | [] =>
    rw [step_of_no_request hin] at hstep
    exact .inl ⟨rfl, (Host.Outcome.next.inj hstep).symm⟩
  | .hardwareReset :: rest =>
    rw [step_of_hardwareReset hin] at hstep
    exact .inr (.inl ⟨rest, rfl, (Host.Outcome.next.inj hstep).symm⟩)
  | .word w :: rest =>
    cases hdec : decode s.des.esc w with
    | error r => simp [step_of_decode_error hin hdec] at hstep
    | ok i => exact .inr (.inr ⟨w, rest, i, rfl, hdec, step_of_decode_ok hin hdec ▸ hstep⟩)

/-- Settles O51: idling and hardware reset keep the invariants, and so does every instruction. -/
theorem stepKeepsTheInvariant : Obligations.StepKeepsTheInvariant := by
  unfold Obligations.StepKeepsTheInvariant
  intro s t h hstep
  obtain ⟨-, rfl⟩ | ⟨rest, -, rfl⟩ | ⟨w, rest, i, -, -, hexec⟩ := step_next_cases hstep
  · exact h.report .nothing
  · exact State.reset_inv.setInputs rest
  · exact (h.setInputs rest).exec_next hexec

/-- Settles O1: in END with no code pending only the fault bit can change, until a Frame is loaded. -/
theorem serializerHardwareReset : Obligations.SerializerHardwareReset :=
  ⟨rfl, rfl, execSerNext_of_next (s := State.reset) (Serializer.next_ended rfl rfl), fun _ _ => rfl⟩

/-- `DES.RESET` puts the deserializer into its hardware reset state, whatever it was in (R150). -/
theorem exec_desReset (s : State) : exec .desReset s = .next { s with des := State.reset.des, result := .nothing } := rfl

/-- Settles O2: the state `DES.RESET` leaves does not depend on the deserializer it finds. -/
theorem deserializerHardwareReset : Obligations.DeserializerHardwareReset := by
  unfold Obligations.DeserializerHardwareReset
  refine ⟨rfl, exec_desReset, fun s t hexec => ?_, fun _ _ => rfl⟩
  rw [exec_desReset, Host.Outcome.next.injEq] at hexec
  subst hexec
  exact exec_desReset _

end Sys2Proof.Machine
end

section
/-! PROOFS. Several blocks: a step replaces one of them in the list (R20, R202; log 4). -/

namespace Sys2Proof.Machine

/-- A step of the system is the step of the block chosen, put back in its place. -/
theorem System.step_of_next {sys : System} {k : Fin sys.length} {s : State} (hstep : Machine.step sys[k] = .next s) :
    System.step sys k = .next (sys.set k s) := by
  simp only [System.step, hstep]

/-- Settles O48: replacing one entry of a list leaves every other entry as it was. -/
theorem instancesShareNothing : Obligations.InstancesShareNothing := by
  unfold Obligations.InstancesShareNothing
  constructor
  · intro sys k s hstep
    exact ⟨_, System.step_of_next hstep, List.length_set, List.getElem?_set_self k.isLt,
      fun j hj => List.getElem?_set_ne hj.symm⟩
  · intro n k hk
    exact List.getElem?_replicate_of_lt hk

end Sys2Proof.Machine
end

section
/-! PROOFS. What an instruction that completes depends on: its own component only. So instructions of different components
commute (R20, R68). -/

namespace Sys2Proof.Machine

/-- The component `p` and what was returned are those of `t`, everything else is that of `s`. -/
def State.adopt (s : State) (p : CmdPort) (t : State) : State :=
  match p with
  | .ck => s.putCk t.ck t.result
  | .ser => s.putSer t.ser t.result
  | .des => s.putDes t.des t.result

/-- The registers of the component `p` are the same in two states. -/
def State.AgreeAt (p : CmdPort) (s' s : State) : Prop :=
  match p with
  | .ck => s'.ck = s.ck
  | .ser => s'.ser = s.ser
  | .des => s'.des = s.des

@[simp] theorem State.adopt_result (s : State) (p : CmdPort) (t : State) : (s.adopt p t).result = t.result := by
  cases p <;> rfl

theorem State.AgreeAt.refl (p : CmdPort) (s : State) : s.AgreeAt p s := by
  cases p <;> rfl

theorem State.AgreeAt.symm {p : CmdPort} {s s' : State} (h : s'.AgreeAt p s) : s.AgreeAt p s' := by
  cases p <;> exact Eq.symm h

/-- Two different components are adopted in either order; only what was returned last depends on it. -/
theorem State.adopt_comm (s a b : State) {p q : CmdPort} (hne : p ≠ q) :
    (s.adopt p a).adopt q b = ((s.adopt q b).adopt p a).report b.result :=
  match p, q, hne with
  | .ck, .ser, _ | .ck, .des, _ | .ser, .ck, _ | .ser, .des, _ | .des, .ck, _ | .des, .ser, _ => rfl
  | .ck, .ck, h | .ser, .ser, h | .des, .des, h => absurd rfl h

section
variable {i : Instr} {b : Byte} {W : List Byte} {s s' t : State}

/-- An instruction of the standalone accumulator reads no register but `ck` (R110 to R112). -/
theorem exec_of_ck_eq (hport : i.port = .ck) (hexec : exec i s = .next t) (hck : s'.ck = s.ck) :
    exec i s' = .next (s'.putCk t.ck t.result) := by
  obtain ⟨ck', ser', des', r', q'⟩ := s'
  obtain rfl : ck' = s.ck := hck
  cases i <;> simp [Instr.port] at hport
  case ckWrite | ckReset | ckValue | nop => cases hexec; rfl
  case reserved => exact nomatch hexec

/-- An instruction of the serializer reads no register of another component (R120, R121, R130, R132). -/
theorem exec_of_ser_eq (hport : i.port = .ser) (hexec : exec i s = .next t) (hser : s'.ser = s.ser) :
    exec i s' = .next (s'.putSer t.ser t.result) := by
  obtain ⟨ck', ser', des', r', q'⟩ := s'
  obtain rfl : ser' = s.ser := hser
  cases i <;> simp [Instr.port] at hport
  case serNext =>
    obtain ⟨z, p, hnext, rfl⟩ := execSerNext_next hexec
    exact execSerNext_of_next hnext
  case serLoad | serRestart | serDone | nop => cases hexec; rfl
  case reserved => exact nomatch hexec

/-- A raw byte that arrives is answered by the deserializer alone (R140). -/
theorem receive_of_des_eq (h : receive b s = .next t) (hdes : s'.des = s.des) :
    receive b s' = .next (s'.putDes t.des t.result) := by
  obtain ⟨d, y, hpush, rfl⟩ := receive_next h
  exact receive_of_push (hdes ▸ hpush)

theorem receiveAll_cons (h : receive b s = .next s') : receiveAll (b :: W) s = receiveAll W s' := by
  rw [receiveAll, h]

/-- Raw bytes that are all answered: the first one is, and then the others. -/
theorem receiveAll_cons_next (h : receiveAll (b :: W) s = .next t) :
    ∃ s₁, receive b s = .next s₁ ∧ receiveAll W s₁ = .next t := by
  unfold receiveAll at h
  split at h
  case h_1 s₁ hb => exact ⟨s₁, hb, h⟩
  all_goals simp at h

/-- Raw bytes that arrive one after the other are answered by the deserializer alone. -/
theorem receiveAll_of_des_eq (h : receiveAll (b :: W) s = .next t) (hdes : s'.des = s.des) :
    receiveAll (b :: W) s' = .next (s'.putDes t.des t.result) := by
  induction W generalizing b s s' with
  | nil =>
    rw [receiveAll_singleton] at h ⊢
    exact receive_of_des_eq h hdes
  | cons b' W ih =>
    obtain ⟨s₁, hb, hrest⟩ := receiveAll_cons_next h
    rw [receiveAll_cons (receive_of_des_eq hb hdes)]
    exact ih hrest rfl

/-- Whatever arrives at the receiver reads no register of another component (R140, R150). -/
theorem exec_of_des_eq (hport : i.port = .des) (hexec : exec i s = .next t) (hdes : s'.des = s.des) :
    exec i s' = .next (s'.putDes t.des t.result) := by
  obtain ⟨b, hb⟩ | ⟨W, hne, hW⟩ | rfl | rfl | rfl := port_des_cases hport
  · rw [exec_of_rawByte hb] at hexec ⊢
    exact receive_of_des_eq hexec hdes
  · obtain ⟨b, W, rfl⟩ := List.exists_cons_of_ne_nil hne
    rw [hW] at hexec ⊢
    exact receiveAll_of_des_eq hexec hdes
  · cases hexec; rfl
  · cases hexec; rw [State.report_des, ← hdes]; rfl
  · exact nomatch hexec

/-- An instruction completes from every state that agrees at its component, and does there what it did: only that component and
the result are written. -/
theorem exec_of_agreeAt (hexec : exec i s = .next t) (h : s'.AgreeAt i.port s) :
    exec i s' = .next (s'.adopt i.port t) := by
  cases hport : i.port <;> rw [hport] at h
  case ck => exact exec_of_ck_eq hport hexec h
  case ser => exact exec_of_ser_eq hport hexec h
  case des => exact exec_of_des_eq hport hexec h

/-- An instruction that completes changes its own component and the result only. -/
theorem exec_next_eq_adopt (hexec : exec i s = .next t) : t = s.adopt i.port t :=
  Host.Outcome.next.inj (hexec.symm.trans (exec_of_agreeAt hexec (.refl _ _)))

/-- Every other component is as it was (R20). -/
theorem exec_next_agreeAt {p : CmdPort} (hexec : exec i s = .next t) (hne : i.port ≠ p) : t.AgreeAt p s := by
  obtain ⟨hck, hser, hdes, -⟩ := componentsShareNothing i s t hexec
  cases p
  case ck => exact hck hne
  case ser => exact hser hne
  case des => exact hdes hne

end

/-- Settles O47: each of the two instructions finds its own component as it would find it first. -/
theorem differentComponentsCommute : Obligations.DifferentComponentsCommute := by
  unfold Obligations.DifferentComponentsCommute
  intro i j s t u hne hi hj
  have hjFirst : exec j s = .next (s.adopt j.port u) := exec_of_agreeAt hj (exec_next_agreeAt hi hne).symm
  have hiThen : exec i (s.adopt j.port u) = .next ((s.adopt j.port u).adopt i.port t) :=
    exec_of_agreeAt hi (exec_next_agreeAt hjFirst hne.symm)
  have hu : u = ((s.adopt j.port u).adopt i.port t).report u.result := by
    rw [← State.adopt_comm _ _ _ hne, ← exec_next_eq_adopt hi]
    exact exec_next_eq_adopt hj
  exact ⟨_, _, hjFirst, hiThen, (congrArg State.ck hu).symm, (congrArg State.ser hu).symm, (congrArg State.des hu).symm,
    (congrArg State.inputs hu).symm, State.adopt_result .., State.adopt_result ..⟩

end Sys2Proof.Machine
end

section
/-! PROOFS. The header byte: `pack` is the concatenation of its two fields, and `unpack` takes them apart (R82 to R84). -/

namespace Sys2Proof.Machine

section
variable (sv : BitVec 2) (n : BitVec 6)

theorem pack_eq_append : pack sv n = sv ++ n := by
  rw [BitVec.append_def, BitVec.shiftLeftZeroExtend_eq, BitVec.setWidth'_eq, pack]

theorem pack_toNat : (pack sv n).toNat = 64 * sv.toNat + n.toNat := by
  rw [pack_eq_append, BitVec.toNat_append, ← Nat.shiftLeft_add_eq_or_of_lt n.isLt, Nat.shiftLeft_eq]
  omega

@[simp] theorem headerService_pack : headerService (pack sv n) = sv := by
  rw [pack_eq_append, headerService, BitVec.extractLsb'_append_eq_left]

@[simp] theorem headerLength_pack : headerLength (pack sv n) = n := by
  rw [pack_eq_append, headerLength, BitVec.extractLsb'_append_eq_right]

end

/-- Settles O7: each field of a concatenation is read back from its bits. -/
theorem unpackInvertsPack : Obligations.UnpackInvertsPack := by
  unfold Obligations.UnpackInvertsPack
  refine ⟨fun sv n => ⟨pack_eq_append sv n, pack_toNat sv n⟩, rfl, fun _ => rfl, fun sv n => ?_,
    pack_headerService_headerLength⟩
  rw [unpack, headerService_pack, headerLength_pack]

end Sys2Proof.Machine
end

section
/-! PROOFS. The raw bytes: the class of each (R81), what it delivers to the body logic (R87), and that `DES.PUSH` gives it the
meaning of its class (R140). -/

namespace Sys2Proof.Machine

theorem badCode_wellFormed_iff {b : Byte} :
    (Instr.badCode b).wellFormed = true ↔ b ≠ leadingFlag ∧ b ≠ escapeCode55 ∧ b ≠ escapeCodeAA := by
  simp [Instr.wellFormed, and_assoc]

theorem lit_wellFormed_iff {b : Byte} : (Instr.lit b).wellFormed = true ↔ b ≠ leadingFlag ∧ b ≠ escapeFlag := by
  simp [Instr.wellFormed]

/-- The class of a raw byte is given that very byte, whatever the class is. -/
theorem classify_rawByte (esc : Bool) (b : Byte) : (classify esc b).rawByte = some b := by
  unfold classify
  split_ifs <;> simp_all [Instr.rawByte]

/-- The operand of a class is one of those the class admits, and the class stands under the escape bit it was read with. -/
theorem classify_wellFormed (esc : Bool) (b : Byte) :
    (classify esc b).wellFormed = true ∧
      ((classify esc b).escContext = none ∨ (classify esc b).escContext = some esc) := by
  unfold classify
  split_ifs <;> simp_all [Instr.wellFormed, Instr.escContext]

theorem classify_badCode {b : Byte} (h : (Instr.badCode b).wellFormed = true) : classify true b = .badCode b := by
  obtain ⟨hflag, hcode55, hcodeAA⟩ := badCode_wellFormed_iff.mp h
  rw [classify, if_neg hflag, if_pos rfl, if_neg hcode55, if_neg hcodeAA]

theorem classify_lit {b : Byte} (h : (Instr.lit b).wellFormed = true) : classify false b = .lit b := by
  obtain ⟨hflag, hesc⟩ := lit_wellFormed_iff.mp h
  rw [classify, if_neg hflag, if_neg Bool.false_ne_true, if_neg hesc]

/-- Settles O33: a wire class and `DES.PUSH` of its byte are the same raw byte arriving. -/
theorem pushIsTheWireClass : Obligations.PushIsTheWireClass := by
  unfold Obligations.PushIsTheWireClass
  refine ⟨fun _ _ => rfl, fun s b i hdec => ?_⟩
  obtain rfl : classify s.des.esc b = i := Except.ok.inj hdec
  rw [exec_of_rawByte (classify_rawByte _ _)]
  rfl

/-- A byte that is no escape code stands for no content byte while an escape is pending (R142). -/
theorem contentByte_of_badCode {b : Byte} (h : (Instr.badCode b).wellFormed = true) : contentByte true b = none := by
  obtain ⟨hflag, hcode55, hcodeAA⟩ := badCode_wellFormed_iff.mp h
  rw [contentByte, if_neg hflag, if_pos rfl, dec, if_neg hcode55, if_neg hcodeAA]

/-- A literal byte stands for itself (R144). -/
theorem contentByte_of_lit {b : Byte} (h : (Instr.lit b).wellFormed = true) : contentByte false b = some b := by
  obtain ⟨hflag, hesc⟩ := lit_wellFormed_iff.mp h
  rw [contentByte, if_neg hflag, if_neg Bool.false_ne_true, if_neg hesc]

/-- Settles O32: the rows with a free operand by the checks on it, the others by evaluation. -/
theorem whatTheWireDelivers : Obligations.WhatTheWireDelivers := by
  unfold Obligations.WhatTheWireDelivers
  exact ⟨fun _ _ => rfl, fun esc => ⟨by cases esc <;> rfl, fun hesc => hesc ▸ rfl⟩, rfl, rfl,
    fun _ => contentByte_of_badCode, fun _ => contentByte_of_lit, rfl, rfl, fun _ _ => rfl⟩

end Sys2Proof.Machine
end

section
/-! PROOFS. The decoder and the encoder (R81, R82, R86, R95, R98). -/

namespace Sys2Proof.Machine

/-- The load ports hold the payload at the indexes below its length (R95). -/
theorem take_payloadPort {p : List Byte} (h : p.length ≤ 63) : (payloadPort p).toList.take p.length = p := by
  apply List.ext_getElem
  · simpa using h
  · intro k hk hk'
    simp [payloadPort, hk']

/-- A payload's length is a value of `ld_len` (R40, R95). -/
theorem toNat_payload_length (f : Frame) : (BitVec.ofNat 6 f.payload.length).toNat = f.payload.length := by
  have hbound := f.bound
  rw [BitVec.toNat_ofNat]
  omega

/-- The Frame read from the load ports is the one put on them. -/
theorem loadedFrame_payloadPort (f : Frame) :
    loadedFrame f.service (BitVec.ofNat 6 f.payload.length) (payloadPort f.payload) = f := by
  have hpayload : (payloadPort f.payload).toList.take (BitVec.ofNat 6 f.payload.length).toNat = f.payload := by
    rw [toNat_payload_length f, take_payloadPort f.bound]
  obtain ⟨sv, p, hp⟩ := f
  exact (Frame.mk.injEq ..).mpr ⟨rfl, hpayload⟩

/-- Decoding the word of a well-formed instruction gives it back, under the escape condition it stands under. -/
theorem decode_encode {i : Instr} {esc : Bool} (hwf : i.wellFormed = true)
    (hctx : i.escContext = none ∨ i.escContext = some esc) : decode esc (encode i) = .ok i := by
  have context {e : Bool} (h : i.escContext = some e) : e = esc := by simpa [h] using hctx
  cases i
  case code55 => obtain rfl := context rfl; rfl
  case codeAA => obtain rfl := context rfl; rfl
  case esc => obtain rfl := context rfl; rfl
  case badCode b =>
    obtain rfl := context rfl
    exact congrArg Except.ok (classify_badCode hwf)
  case lit b =>
    obtain rfl := context rfl
    exact congrArg Except.ok (classify_lit hwf)
  case header sv n => rw [encode, decode, headerService_pack, headerLength_pack]
  case serLoad f e => exact congrArg (fun g => Except.ok (Instr.serLoad g e)) (loadedFrame_payloadPort f)
  case nop p => cases p <;> rfl
  case reserved p =>
    cases p
    case ser => exact absurd hwf Bool.false_ne_true
    all_goals rfl
  all_goals rfl

/-- Settles O5, by the cases of the instruction. -/
theorem decodeOfEncode : Obligations.DecodeOfEncode := fun _ _ => decode_encode

/-- A command code names an operation that stands under any escape condition (R95, R98). -/
theorem decodeCk_wellFormed (cmd : BitVec 2) (b : Byte) :
    (decodeCk cmd b).wellFormed = true ∧ (decodeCk cmd b).escContext = none := by
  unfold decodeCk
  split_ifs <;> exact ⟨rfl, rfl⟩

theorem decodeSer_wellFormed (cmd sv : BitVec 2) (n : BitVec 6) (p : Vector Byte 63) (e : Bool) :
    (decodeSer cmd sv n p e).wellFormed = true ∧ (decodeSer cmd sv n p e).escContext = none := by
  unfold decodeSer
  split_ifs <;> exact ⟨rfl, rfl⟩

theorem decodeDes_wellFormed (cmd : BitVec 2) (b : Byte) :
    (decodeDes cmd b).wellFormed = true ∧ (decodeDes cmd b).escContext = none := by
  unfold decodeDes
  split_ifs <;> exact ⟨rfl, rfl⟩

theorem decodePair_wellFormed {a b : Byte} {i : Instr} (h : decodePair a b = .ok i) :
    i.wellFormed = true ∧ i.escContext = none := by
  unfold decodePair at h
  split_ifs at h <;> cases h <;> exact ⟨rfl, rfl⟩

/-- Whatever the decoder answers is well formed and stands under the escape condition it was decoded under. -/
theorem decode_wellFormed {esc : Bool} {w : PortWord} {i : Instr} (h : decode esc w = .ok i) :
    i.wellFormed = true ∧ (i.escContext = none ∨ i.escContext = some esc) := by
  cases w
  case wirePair a b =>
    obtain ⟨hwf, hctx⟩ := decodePair_wellFormed h
    exact ⟨hwf, .inl hctx⟩
  all_goals cases h
  case ckCmd cmd b => exact (decodeCk_wellFormed cmd b).imp id .inl
  case serCmd cmd sv n p e => exact (decodeSer_wellFormed cmd sv n p e).imp id .inl
  case desCmd cmd b => exact (decodeDes_wellFormed cmd b).imp id .inl
  case wire b => exact classify_wellFormed esc b
  all_goals exact ⟨rfl, .inl rfl⟩

/-- A pair that is neither escape pair is rejected (log 7). -/
theorem decode_wirePair_error {esc : Bool} {a b : Byte} (h : ¬(a = escapeFlag ∧ (b = escapeCode55 ∨ b = escapeCodeAA))) :
    decode esc (.wirePair a b) = .error (.notAnEscapePair a b) := by
  rw [decode, decodePair, if_neg fun hp => h ⟨hp.1, .inl hp.2⟩, if_neg fun hp => h ⟨hp.1, .inr hp.2⟩]

/-- Settles O6: an answer is well formed, so its own word decodes to it. -/
theorem decodedInstructionsAreWellFormed : Obligations.DecodedInstructionsAreWellFormed := by
  unfold Obligations.DecodedInstructionsAreWellFormed
  refine fun esc w => ⟨fun i hdec => ?_, fun r => ⟨fun herr => ?_, ?_⟩⟩
  · obtain ⟨hwf, hctx⟩ := decode_wellFormed hdec
    exact ⟨hwf, hctx, decode_encode hwf hctx⟩
  · obtain ⟨a, b, hr, hw, hne⟩ := decode_eq_error herr
    exact ⟨a, b, hw, hr, hne⟩
  · rintro ⟨a, b, rfl, rfl, hne⟩
    exact decode_wirePair_error hne

/-- Settles O4: each word is evaluated. -/
theorem writtenWordsDecode : Obligations.WrittenWordsDecode :=
  ⟨rfl, rfl, rfl, rfl, rfl, rfl, rfl, rfl, rfl, rfl, rfl, rfl, rfl⟩

/-- Settles O44: neither command code looks at the state or at an operand port. -/
theorem nopHoldsAndReservedStops : Obligations.NopHoldsAndReservedStops :=
  ⟨fun _ _ => rfl, fun _ _ => rfl, fun _ _ => ⟨rfl, rfl, fun _ _ _ _ => rfl, rfl, rfl⟩⟩

end Sys2Proof.Machine
end

section
/-! PROOFS. The wire form of a Frame (R89): its length (R90), and its bytes for an empty payload (R173). -/

namespace Sys2Proof.Machine

/-- A content byte is one byte on the wire, or two where it is escaped (R86). -/
theorem length_enc (b : Byte) : (enc b).length = if b = leadingFlag ∨ b = escapeFlag then 2 else 1 := by
  unfold enc
  split_ifs <;> simp_all

theorem enc_of_ne {b : Byte} (hflag : b ≠ leadingFlag) (hesc : b ≠ escapeFlag) : enc b = [b] := by
  rw [enc, if_neg hflag, if_neg hesc]

theorem one_le_length_enc (b : Byte) : 1 ≤ (enc b).length := by
  rw [length_enc]
  split <;> simp

theorem length_enc_le_two (b : Byte) : (enc b).length ≤ 2 := by
  rw [length_enc]
  split <;> simp

/-- Escaping at most doubles a sequence of content bytes. -/
theorem length_flatMap_enc_le (B : List Byte) : (B.flatMap enc).length ≤ 2 * B.length := by
  induction B with
  | nil => simp
  | cons b B ih =>
    have henc := length_enc_le_two b
    rw [List.flatMap_cons, List.length_append, List.length_cons]
    omega

section
variable (c : Checksum) (f : Frame) (e : Bool)

theorem frameHeader_toNat : (frameHeader f).toNat = 64 * f.service.toNat + f.payload.length := by
  rw [frameHeader, pack_toNat, toNat_payload_length]

/-- The header of the longest Frame, or of an empty one, is neither reserved byte: those have the lengths 21 and 42 (R124). -/
theorem enc_frameHeader {f : Frame} (h : f.payload.length = 0 ∨ f.payload.length = 63) :
    enc (frameHeader f) = [frameHeader f] := by
  have hval := frameHeader_toNat f
  have hsv := f.service.isLt
  refine enc_of_ne (fun heq => ?_) (fun heq => ?_)
  · rw [heq, show leadingFlag.toNat = 85 from rfl] at hval
    omega
  · rw [heq, show escapeFlag.toNat = 170 from rfl] at hval
    omega

/-- The parts of the wire form: SOF flag, header, payload, checksum, EOF flag (R89). -/
theorem length_wireOf :
    (wireOf c f e).length = 1 + (enc (frameHeader f)).length + (f.payload.flatMap enc).length +
      (enc (frameChecksum c f)).length + if e then 1 else 0 := by
  cases e <;> simp [wireOf, frameContent] <;> omega

/-- A header, a checksum and a flag are always sent. -/
theorem three_le_length_wireOf : 3 ≤ (wireOf c f e).length := by
  have hheader := one_le_length_enc (frameHeader f)
  have hsum := one_le_length_enc (frameChecksum c f)
  rw [length_wireOf]
  omega

/-- The longest Frame does not reach 132 bytes, because its header is not escaped (R90). -/
theorem length_wireOf_le : (wireOf c f e).length ≤ 131 := by
  have hbound := f.bound
  have hpayload := length_flatMap_enc_le f.payload
  have hsum := length_enc_le_two (frameChecksum c f)
  have heof : (if e then 1 else 0) ≤ 1 := by split <;> simp
  rw [length_wireOf]
  by_cases hlongest : f.payload.length = 63
  · rw [enc_frameHeader (.inr hlongest), List.length_singleton]
    omega
  · have hheader := length_enc_le_two (frameHeader f)
    omega

end

/-- Settles O29: the wire form is the flags and the escaped content bytes. -/
theorem wireLength : Obligations.WireLength := by
  unfold Obligations.WireLength
  refine fun c f e => ⟨?_, three_le_length_wireOf c f e, length_wireOf_le c f e⟩
  have hcontent : ((frameContent c f).flatMap enc).length =
      ((frameContent c f).map fun b => if b = 0x55#8 ∨ b = 0xAA#8 then 2 else 1).sum := by
    rw [List.length_flatMap, funext length_enc]
  have heof : (if e then [leadingFlag] else []).length = if e then 1 else 0 := by cases e <;> rfl
  rw [wireOf, List.length_cons, List.length_append, hcontent, heof]
  omega

/-- The header of an empty payload holds the service only (R173). -/
theorem frameHeader_of_nil {f : Frame} (h : f.payload = []) : frameHeader f = BitVec.ofNat 8 (64 * f.service.toNat) := by
  have hsv := f.service.isLt
  apply BitVec.eq_of_toNat_eq
  rw [frameHeader_toNat, h, BitVec.toNat_ofNat, List.length_nil]
  omega

/-- Settles O31: with no payload byte the header is followed by the checksum of the header alone. -/
theorem zeroLengthWire : Obligations.ZeroLengthWire := by
  unfold Obligations.ZeroLengthWire
  intro c f e h
  have hheader : enc (frameHeader f) = [frameHeader f] := enc_frameHeader (.inl (by rw [h, List.length_nil]))
  rw [← frameHeader_of_nil h, ← ckOf_singleton, wireOf, frameContent, frameChecksum, h]
  simp [hheader]

end Sys2Proof.Machine
end

section
/-! PROOFS. What the serializer still has to send, in any state with the invariants; `SER.NEXT` sends the first byte of it and
leaves the rest (R121 to R129), so `SERIALIZE` returns the wire form (R97, R133). -/

namespace Sys2Proof.Machine

/-- The bytes of header and payload not yet folded. -/
def Serializer.toFold (z : Serializer) : List Byte :=
  match z.phase with
  | .sof | .header => z.headerByte :: z.payload
  | .payload => z.payload.drop z.idx.toNat
  | .crc | .eof | .ended => []

/-- The wire bytes of what is not yet folded, of the checksum and of the EOF flag. -/
def Serializer.bodyBytes (c : Checksum) (z : Serializer) : List Byte :=
  (z.toFold ++ [z.toFold.foldl c.step z.ck]).flatMap enc ++ if z.eof then [leadingFlag] else []

/-- The wire bytes the next `SER.NEXT` steps return. -/
def Serializer.toSend (c : Checksum) (z : Serializer) : List Byte :=
  z.pend.code.toList ++
    match z.phase with
    | .sof => leadingFlag :: z.bodyBytes c
    | .header | .payload | .crc => z.bodyBytes c
    | .eof => [leadingFlag]
    | .ended => []

section
variable {c : Checksum} {z : Serializer}

theorem Serializer.toFold_of_start (hph : z.phase = .sof ∨ z.phase = .header) :
    z.toFold = z.headerByte :: z.payload := by
  rcases hph with hph | hph <;> simp [toFold, hph]

theorem Serializer.toFold_of_payload (hph : z.phase = .payload) : z.toFold = z.payload.drop z.idx.toNat := by
  simp [toFold, hph]

theorem Serializer.toFold_of_crc (hph : z.phase = .crc) : z.toFold = [] := by
  simp [toFold, hph]

/-- The phases in which content bytes are sent. -/
theorem Serializer.toSend_of_content (hph : z.phase = .header ∨ z.phase = .payload ∨ z.phase = .crc) :
    z.toSend c = z.pend.code.toList ++ z.bodyBytes c := by
  rcases hph with hph | hph | hph <;> simp [toSend, hph]

theorem Serializer.bodyBytes_of_cons {x : Byte} {B : List Byte} (h : z.toFold = x :: B) :
    z.bodyBytes c = enc x ++ ((B ++ [B.foldl c.step (c.step z.ck x)]).flatMap enc ++
      if z.eof then [leadingFlag] else []) := by
  simp [bodyBytes, h]

theorem Serializer.bodyBytes_of_nil (h : z.toFold = []) :
    z.bodyBytes c = enc z.ck ++ if z.eof then [leadingFlag] else [] := by
  simp [bodyBytes, h]

/-- After `SER.LOAD` the whole wire form is to be sent (R89, R120). -/
theorem Serializer.toSend_load (f : Frame) (e : Bool) : (z.load c f e).toSend c = wireOf c f e := rfl

/-- Emitting `x` sends the first byte of `enc x` and leaves the code pending, if there is one (R129). -/
theorem enc_append (x : Byte) (W : List Byte) : enc x ++ W = emitByte x :: ((emitPend x).code.toList ++ W) := by
  rw [← emit_enc, List.cons_append]

theorem Serializer.toSend_pending {code : Byte} (h : z.pend.code = some code) :
    z.toSend c = code :: (z.nextPending code).1.toSend c := by
  simp only [toSend, h]
  rfl

theorem Serializer.toSend_sof (hpend : z.pend = .empty) (hph : z.phase = .sof) :
    z.toSend c = leadingFlag :: z.nextSof.1.toSend c := by
  have hbody : z.nextSof.1.bodyBytes c = z.bodyBytes c := by
    rw [bodyBytes, bodyBytes, toFold_of_start (z := z) (.inl hph), toFold_of_start (.inr rfl)]
    rfl
  rw [toSend_of_content (z := z.nextSof.1) (.inl rfl), hbody]
  simp [toSend, nextSof, hpend, hph, Pend.code]

/-- A content byte is sent from a phase that then has one byte less to fold, or one checksum less to send. -/
theorem Serializer.toSend_emit {x : Byte} {z' : Serializer} {W : List Byte} (hpend : z.pend = .empty)
    (hph : z.phase = .header ∨ z.phase = .payload ∨ z.phase = .crc) (hbody : z.bodyBytes c = enc x ++ W)
    (hrest : z'.toSend c = (emitPend x).code.toList ++ W) : z.toSend c = emitByte x :: z'.toSend c := by
  rw [toSend_of_content hph, hpend, hbody, enc_append, hrest]
  rfl

/-- A header or payload byte: it is folded, and the phase after it has the bytes after it to send. -/
theorem Serializer.toSend_emit_folded {x : Byte} {z' : Serializer} (hpend : z.pend = .empty)
    (hph : z.phase = .header ∨ z.phase = .payload) (hfold : z.toFold = x :: z'.toFold)
    (hph' : z'.phase = .payload ∨ z'.phase = .crc) (hck' : z'.ck = c.step z.ck x) (heof' : z'.eof = z.eof)
    (hpend' : z'.pend = emitPend x) : z.toSend c = emitByte x :: z'.toSend c := by
  refine toSend_emit hpend (hph.imp_right .inl) (bodyBytes_of_cons hfold) ?_
  rw [toSend_of_content (.inr hph'), hpend', bodyBytes, hck', heof']

/-- Arm HEADER: the payload is left to fold (R124). -/
theorem Serializer.toSend_header (h : z.Inv c) (hpend : z.pend = .empty) (hph : z.phase = .header) :
    z.toSend c = emitByte z.headerByte :: (z.nextHeader c).1.toSend c := by
  obtain ⟨hidx, -, -⟩ := h.start (.inr hph)
  have hfold := toFold_of_start (.inr hph)
  by_cases h0 : z.len = 0
  · have hnil : z.payload = [] := List.eq_nil_of_length_eq_zero (by simp [h.payload_length, h0])
    have hph' : (z.nextHeader c).1.phase = .crc := if_pos h0
    exact toSend_emit_folded hpend (.inl hph) (by rw [hfold, hnil, toFold_of_crc hph']) (.inr hph') rfl rfl rfl
  · have hph' : (z.nextHeader c).1.phase = .payload := if_neg h0
    have hfold' : (z.nextHeader c).1.toFold = z.payload := by
      rw [toFold_of_payload hph']
      simp [nextHeader, emit, hidx]
    exact toSend_emit_folded hpend (.inl hph) (by rw [hfold, hfold']) (.inl hph') rfl rfl rfl

/-- Arm PAYLOAD: the bytes after the one read are left to fold (R125). -/
theorem Serializer.toSend_payload {b : Byte} (h : z.Inv c) (hpend : z.pend = .empty) (hph : z.phase = .payload)
    (hread : memRead z.payload z.len z.idx = some b) :
    z.toSend c = emitByte b :: (z.nextPayload c b).1.toSend c := by
  obtain ⟨hidx, hget⟩ := memRead_eq_some.mp hread
  have hnext := toNat_add_one_of_lt hidx
  have hfold : z.toFold = b :: z.payload.drop (z.idx + 1).toNat := by
    obtain ⟨hlt, rfl⟩ := List.getElem?_eq_some_iff.mp hget
    rw [hnext, ← List.drop_eq_getElem_cons hlt, toFold_of_payload hph]
  by_cases hlast : z.idx + 1 = z.len
  · have hph' : (z.nextPayload c b).1.phase = .crc := if_pos hlast
    have hfold' : z.payload.drop (z.idx + 1).toNat = [] := by rw [hlast, ← h.payload_length, List.drop_length]
    exact toSend_emit_folded hpend (.inr hph) (by rw [hfold, hfold', toFold_of_crc hph']) (.inr hph') rfl rfl rfl
  · have hph' : (z.nextPayload c b).1.phase = .payload := if_neg hlast
    have hfold' : (z.nextPayload c b).1.toFold = z.payload.drop (z.idx + 1).toNat := toFold_of_payload hph'
    exact toSend_emit_folded hpend (.inr hph) (by rw [hfold, hfold']) (.inl hph') rfl rfl rfl

/-- Arm CRC: nothing is left to fold, and only the EOF flag, if asked for, is left to send (R126). -/
theorem Serializer.toSend_crc (hpend : z.pend = .empty) (hph : z.phase = .crc) :
    z.toSend c = emitByte z.ck :: z.nextCrc.1.toSend c := by
  refine toSend_emit hpend (.inr (.inr hph)) (bodyBytes_of_nil (toFold_of_crc hph)) ?_
  cases heof : z.eof <;> simp [toSend, nextCrc, emit, heof]

theorem Serializer.toSend_eof (hpend : z.pend = .empty) (hph : z.phase = .eof) :
    z.toSend c = leadingFlag :: z.nextEof.1.toSend c := by
  simp [toSend, nextEof, hpend, hph, Pend.code]

/-- Nothing is left to send when the serializer is done (R29). -/
theorem Serializer.toSend_of_isDone (h : z.isDone = true) : z.toSend c = [] := by
  obtain ⟨hph, hpend⟩ := z.isDone_iff.mp h
  simp [toSend, hph, hpend, Pend.code]

/-- Under the invariants a serializer that is not done returns the first byte it has to send, and has the others left. -/
theorem Serializer.Inv.next_of_not_done (h : z.Inv c) (hmore : z.isDone = false) :
    ∃ b z', z.next c = some (z', .byte b) ∧ z.toSend c = b :: z'.toSend c := by
  obtain ⟨r, hr⟩ := h.next_isSome
  rw [hr]
  obtain ⟨code, hcode, rfl⟩ | ⟨hpend, ⟨hph, rfl⟩ | ⟨hph, rfl⟩ | ⟨hph, b, hread, rfl⟩ | ⟨hph, rfl⟩ | ⟨hph, rfl⟩ |
    ⟨hph, rfl⟩⟩ := next_cases hr
  · exact ⟨_, _, rfl, toSend_pending hcode⟩
  · exact ⟨_, _, rfl, toSend_sof hpend hph⟩
  · exact ⟨_, _, rfl, toSend_header h hpend hph⟩
  · exact ⟨_, _, rfl, toSend_payload h hpend hph hread⟩
  · exact ⟨_, _, rfl, toSend_crc hpend hph⟩
  · exact ⟨_, _, rfl, toSend_eof hpend hph⟩
  · simp [(isDone_iff z).mpr ⟨hph, hpend⟩] at hmore

end

theorem drain_of_done {s : State} (hdone : s.serDone = true) (n : Nat) : drain n s = .next (s, []) := by
  cases n <;> simp [drain, hdone]

/-- One byte pulled, and the others after it (R97). -/
theorem drain_succ {s t : State} {z : Serializer} {b : Byte} {W : List Byte} {n : Nat} (hmore : s.serDone = false)
    (hnext : s.ser.next Config.checksum = some (z, .byte b)) (hrest : drain n (s.putSer z (.byte b)) = .next (t, W)) :
    drain (n + 1) s = .next (t, b :: W) := by
  have hexec : exec .serNext s = .next (s.putSer z (.byte b)) := execSerNext_of_next hnext
  simp [drain, hmore, hexec, hrest, bytesOf]

/-- Pulling while the serializer is not done returns what it has to send, and touches nothing else of the block. -/
theorem drain_toSend {n : Nat} {s : State} (h : s.ser.Inv Config.checksum)
    (hn : (s.ser.toSend Config.checksum).length ≤ n) :
    ∃ z r, drain n s = .next (s.putSer z r, s.ser.toSend Config.checksum) ∧ z.isDone = true ∧
      z.fault = s.ser.fault := by
  cases hdone : s.serDone
  case true =>
    exact ⟨s.ser, s.result, by rw [drain_of_done hdone, Serializer.toSend_of_isDone hdone]; rfl, hdone, rfl⟩
  case false =>
    obtain ⟨b, z, hnext, hsend⟩ := h.next_of_not_done hdone
    rw [hsend] at hn ⊢
    cases n
    case zero => simp at hn
    case succ n =>
      obtain ⟨z', r, hdrain, hdone', hfault⟩ := drain_toSend (n := n) (s := s.putSer z (.byte b))
        (Serializer.next_inv h hnext) (Nat.le_of_succ_le_succ hn)
      have hkept : z.fault = s.ser.fault := by
        rw [Serializer.next_fault hnext, show s.ser.isDone = false from hdone, Bool.or_false]
      exact ⟨z', r, drain_succ hdone hnext hdrain, hdone', hfault.trans hkept⟩

/-- `SERIALIZE` returns the wire form, from any state, and leaves the serializer done and unfaulted (R97, R133). -/
theorem serialize_wireOf (f : Frame) (e : Bool) (s : State) :
    ∃ z r, serialize f e s = .next (s.putSer z r, wireOf Config.checksum f e) ∧ z.isDone = true ∧ z.fault = false := by
  obtain ⟨z, r, hdrain, hdone, hfault⟩ := drain_toSend (n := 131)
    (s := s.putSer (s.ser.load Config.checksum f e) .nothing) (Serializer.load_inv f e)
    (length_wireOf_le Config.checksum f e)
  exact ⟨z, r, hdrain, hdone, hfault⟩

end Sys2Proof.Machine
end

section
/-! PROOFS. Raw bytes fed to the receiver one after the other (R97): the wire form of a Frame, from any state, yields exactly
that Frame (R170). -/

namespace Sys2Proof.Machine

section
variable {c : Checksum} {d d' d'' : Deserializer} {A B W : List Byte} {F G : List Frame} {x : Byte}

theorem Deserializer.feed_cons {b : Byte} {y : Option Frame} (hpush : d.push c b = some (d', y))
    (hrest : d'.feed c W = some (d'', F)) : d.feed c (b :: W) = some (d'', y.toList ++ F) := by
  simp [feed, hpush, hrest]

theorem Deserializer.feed_singleton {b : Byte} {y : Option Frame} (hpush : d.push c b = some (d', y)) :
    d.feed c [b] = some (d', y.toList) := by
  simp [feed, hpush]

/-- Bytes that are all answered: the first one is, and then the others. -/
theorem Deserializer.feed_cons_eq_some {b : Byte} (h : d.feed c (b :: W) = some (d'', F)) :
    ∃ d' y F', d.push c b = some (d', y) ∧ d'.feed c W = some (d'', F') ∧ F = y.toList ++ F' := by
  rw [feed] at h
  split at h
  case h_1 => simp at h
  case h_2 d' y hpush =>
    obtain ⟨⟨_, F'⟩, hfeed, heq⟩ := Option.map_eq_some_iff.mp h
    obtain ⟨rfl, rfl⟩ := Prod.mk.inj heq
    exact ⟨d', y, F', hpush, hfeed, rfl⟩

/-- Two sequences of bytes, one after the other. -/
theorem Deserializer.feed_append (hA : d.feed c A = some (d', F)) (hB : d'.feed c B = some (d'', G)) :
    d.feed c (A ++ B) = some (d'', F ++ G) := by
  induction A generalizing d F with
  | nil =>
    obtain ⟨rfl, rfl⟩ : d = d' ∧ [] = F := by simpa [feed] using hA
    exact hB
  | cons b A ih =>
    obtain ⟨d₁, y, F', hpush, hfeed, rfl⟩ := feed_cons_eq_some hA
    rw [List.cons_append, List.append_assoc]
    exact feed_cons hpush (ih hfeed)

/-- The wire form of a content byte, with no escape pending, gives that byte to the body logic (R86, R142 to R144). -/
theorem Deserializer.feed_enc {y : Option Frame} (hesc : d.esc = false) (hbody : d.body c x = some (d', y)) :
    d.feed c (enc x) = some (d', y.toList) := by
  have escaped {code : Byte} (hcode : contentByte true code = some x) :
      d.feed c [escapeFlag, code] = some (d', y.toList) := by
    refine feed_cons (push_escape hesc) (feed_singleton ?_)
    rw [push_content (d := d.takeEscape) hcode, takeEscape_clearEsc, clearEsc_of_not hesc, hbody]
  by_cases hflag : x = leadingFlag
  · subst hflag
    exact escaped rfl
  by_cases hpre : x = escapeFlag
  · subst hpre
    exact escaped rfl
  · rw [enc_of_ne hflag hpre]
    refine feed_singleton ?_
    rw [push_content (x := x) (by rw [hesc, contentByte_of_lit (lit_wellFormed_iff.mpr ⟨hflag, hpre⟩)]),
      clearEsc_of_not hesc, hbody]

end

/-- The receiver that has taken the header `{sv, n}` and then the payload bytes `B`, `n` of which are announced. -/
def Deserializer.receiving (c : Checksum) (sv : BitVec 2) (n : BitVec 6) (B : List Byte) : Deserializer where
  state := if B.length < n.toNat then .readPayload else .readCrc
  esc := false
  ck := ckOf c (pack sv n :: B)
  service := sv
  len := n
  idx := BitVec.ofNat 6 B.length
  payload := B

section
variable {c : Checksum} {d : Deserializer} {sv : BitVec 2} {n : BitVec 6} {B P : List Byte} {x : Byte}

/-- After a flag, the header is taken with no payload byte stored yet (R141, R146). -/
theorem Deserializer.takeFlag_body_header :
    (d.takeFlag c).body c (pack sv n) = some (receiving c sv n [], none) := by
  rw [body_readHeader rfl]
  simp [bodyHeader, takeFlag, receiving, reset, ckOf_singleton, BitVec.lt_def]

/-- A count up to `n` is a value of the index register (R34). -/
theorem toNat_ofNat_of_le {k : Nat} (h : k ≤ n.toNat) : (BitVec.ofNat 6 k).toNat = k := by
  have hn := n.isLt
  rw [BitVec.toNat_ofNat]
  omega

/-- The index register has reached `n` exactly when the count has. -/
theorem ofNat_eq_iff_not_lt {k : Nat} (h : k ≤ n.toNat) : BitVec.ofNat 6 k = n ↔ ¬k < n.toNat := by
  rw [← BitVec.toNat_inj, toNat_ofNat_of_le h]
  omega

/-- While payload bytes are announced, a content byte is the next one of them (R147). -/
theorem Deserializer.receiving_body_payload (hlt : B.length < n.toNat) :
    (receiving c sv n B).body c x = some (receiving c sv n (B ++ [x]), none) := by
  have hidx := toNat_ofNat_of_le hlt.le
  have hcount : (B ++ [x]).length = B.length + 1 := by rw [List.length_append, List.length_singleton]
  have hnext : BitVec.ofNat 6 B.length + 1 = BitVec.ofNat 6 (B ++ [x]).length := by
    rw [hcount, BitVec.ofNat_add]
    rfl
  have hlast := ofNat_eq_iff_not_lt (n := n) (k := (B ++ [x]).length) (hcount ▸ hlt)
  have hfold : c.step (ckOf c (pack sv n :: B)) x = ckOf c (pack sv n :: (B ++ [x])) :=
    (ckOf_append_singleton c _ x).symm
  rw [body_readPayload (if_pos hlt) (BitVec.lt_def.mpr (hidx.symm ▸ hlt)) hidx.symm]
  simp only [bodyPayload, receiving, ckWrite, hnext, hlast, hfold, ite_not]

/-- The announced payload bytes, as they come, are stored and folded. -/
theorem Deserializer.receiving_feed_payload (hle : B.length + P.length ≤ n.toNat) :
    (receiving c sv n B).feed c (P.flatMap enc) = some (receiving c sv n (B ++ P), []) := by
  induction P generalizing B with
  | nil => simp [feed]
  | cons x P ih =>
    rw [List.length_cons] at hle
    have hrest := ih (B := B ++ [x]) (by rw [List.length_append, List.length_singleton]; omega)
    rw [List.append_assoc, List.singleton_append] at hrest
    exact feed_append (feed_enc rfl (receiving_body_payload (by omega))) hrest

/-- With the whole payload stored, the sender's checksum yields the Frame and resets the receiver (R114, R148). -/
theorem Deserializer.receiving_body_checksum (f : Frame) :
    (receiving c f.service (BitVec.ofNat 6 f.payload.length) f.payload).body c (frameChecksum c f) =
      some (reset c, some f) := by
  have hlen := toNat_payload_length f
  have hvalid : residueValid (ckWrite c (receiving c f.service (BitVec.ofNat 6 f.payload.length) f.payload).ck
      (frameChecksum c f)) = true :=
    (residueValid_iff _).mpr (step_ckOf_self c _)
  have hheld : (receiving c f.service (BitVec.ofNat 6 f.payload.length) f.payload).heldFrame = some f :=
    heldFrame_eq_some.mpr ⟨hlen.le, rfl, by simp only [receiving, hlen, List.take_length]⟩
  rw [body_readCrc (if_neg hlen.le.not_gt), bodyCrc, if_pos hvalid, hheld]
  rfl

/-- A flag, the header and the payload of a Frame, from any state: only its checksum is awaited. -/
theorem Deserializer.feed_header_payload (f : Frame) :
    d.feed c (leadingFlag :: (enc (frameHeader f) ++ f.payload.flatMap enc)) =
      some (receiving c f.service (BitVec.ofNat 6 f.payload.length) f.payload, []) := by
  refine feed_cons push_flag (feed_append (feed_enc rfl takeFlag_body_header) ?_)
  exact receiving_feed_payload (by rw [toNat_payload_length, List.length_nil, Nat.zero_add])

/-- The wire form of a Frame, from any state of the receiver (R170): that Frame, and a receiver in its reset state, or, after
the EOF flag, one that awaits a header. -/
theorem Deserializer.feed_wireOf (f : Frame) (e : Bool) :
    d.feed c (wireOf c f e) = some (if e then (reset c).takeFlag c else reset c, [f]) := by
  have hwire : wireOf c f e = (leadingFlag :: (enc (frameHeader f) ++ f.payload.flatMap enc)) ++
      (enc (frameChecksum c f) ++ if e then [leadingFlag] else []) := by
    simp [wireOf, frameContent]
  have hflag : (reset c).feed c (if e then [leadingFlag] else []) =
      some (if e then (reset c).takeFlag c else reset c, []) := by
    cases e
    · rfl
    · exact feed_singleton push_flag
  rw [hwire]
  exact feed_append (feed_header_payload f) (feed_append (feed_enc rfl (receiving_body_checksum f)) hflag)

end

/-- Exactly the Frames the receiver yields are among the results. -/
theorem framesOf_cons_yieldResult (y : Option Frame) (rs : List Result) :
    framesOf (yieldResult y :: rs) = y.toList ++ framesOf rs := by
  cases y <;> rfl

/-- Pushing raw bytes into the block is the receiver's own feed, and writes nothing but the deserializer and the result. -/
theorem runAll_desPush {W : List Byte} {s : State} {d : Deserializer} {F : List Frame}
    (h : s.des.feed Config.checksum W = some (d, F)) :
    ∃ r rs, runAll (W.map Instr.desPush) s = .next (s.putDes d r, rs) ∧ framesOf rs = F := by
  induction W generalizing s F with
  | nil =>
    obtain ⟨rfl, rfl⟩ : s.des = d ∧ [] = F := by simpa [Deserializer.feed] using h
    exact ⟨s.result, [], rfl, rfl⟩
  | cons b W ih =>
    obtain ⟨d₁, y, F', hpush, hfeed, rfl⟩ := Deserializer.feed_cons_eq_some h
    obtain ⟨r, rs, hrun, rfl⟩ := ih (s := s.putDes d₁ (yieldResult y)) hfeed
    exact ⟨r, _, runAll_cons (receive_of_push hpush) hrun, framesOf_cons_yieldResult y rs⟩

/-- `FEED` on the block, from what the receiver does with the bytes (R97). -/
theorem feed_of_des_feed {W : List Byte} {s : State} {d : Deserializer} {F : List Frame}
    (h : s.des.feed Config.checksum W = some (d, F)) : ∃ r, feed W s = .next (s.putDes d r, F) := by
  obtain ⟨r, rs, hrun, rfl⟩ := runAll_desPush h
  exact ⟨r, by rw [feed, hrun]⟩

/-- `LOOPBACK` is `FEED` of what `SERIALIZE` returned (R97). -/
theorem loopback_of_serialize {f : Frame} {e : Bool} {s t : State} {W : List Byte}
    (h : serialize f e s = .next (t, W)) : loopback f e s = feed W t := by
  rw [loopback, h]

/-- Settles O55: the serializer returns the wire form, and that form yields the Frame from any state of the receiver. -/
theorem loopbackYieldsTheFrame : Obligations.LoopbackYieldsTheFrame := by
  unfold Obligations.LoopbackYieldsTheFrame
  intro f e s
  obtain ⟨z, r, hser, hdone, hfault⟩ := serialize_wireOf f e s
  obtain ⟨r', hfeed⟩ := feed_of_des_feed (s := s.putSer z r) (Deserializer.feed_wireOf f e)
  exact ⟨_, (loopback_of_serialize hser).trans hfeed, hdone, hfault, rfl, _, hser⟩

end Sys2Proof.Machine
end

section
/-! PROOFS. The standalone accumulator: what its three operations do from any state (R110 to R112), and the left fold that a
sequence of them computes (R113), with its residue (R114, R115). -/

namespace Sys2Proof.Machine

/-- `CK.RESET` takes nothing from the state it finds (R110). -/
theorem exec_ckReset (s : State) : exec .ckReset s = .next (s.putCk Config.checksum.init .nothing) := rfl

/-- `CK.WRITE` folds its byte into whatever `ck` holds (R111). -/
theorem exec_ckWrite (b : Byte) (s : State) :
    exec (.ckWrite b) s = .next (s.putCk (Config.checksum.step s.ck b) .nothing) := rfl

/-- `CK.VALUE` reads `ck` itself (R112). -/
theorem exec_ckValue (s : State) : exec .ckValue s = .next (s.report (.value s.ck)) := rfl

/-- Settles O8: what `CK.RESET` leaves does not depend on the `ck` it finds, so a second one finds nothing to change. -/
theorem accumulatorReset : Obligations.AccumulatorReset := by
  unfold Obligations.AccumulatorReset
  refine ⟨exec_ckReset, fun s t hexec => ?_, rfl, exec_ckReset State.reset, fun _ _ => rfl⟩
  rw [exec_ckReset, Host.Outcome.next.injEq] at hexec
  subst hexec
  exact exec_ckReset _

/-- Settles O9: the fold needs nothing of the state but `ck`, and nothing of the byte. -/
theorem accumulatorWrite : Obligations.AccumulatorWrite := ⟨exec_ckWrite, fun _ _ => rfl⟩

/-- Settles O10: the first reading leaves `ck` as it was, so the second returns the same byte. -/
theorem accumulatorValue : Obligations.AccumulatorValue := by
  unfold Obligations.AccumulatorValue
  refine ⟨exec_ckValue, fun s t u hfirst hsecond => ?_, fun _ => rfl, fun _ _ => rfl⟩
  rw [exec_ckValue, Host.Outcome.next.injEq] at hfirst hsecond
  subst hfirst hsecond
  simp only [State.report_ck, State.report_result]

/-- `CK.WRITE` of one byte after the other folds them into `ck`, from any value it holds (R111, R113). -/
theorem runAll_ckWrite (s : State) (v : Byte) (B : List Byte) :
    runAll (B.map Instr.ckWrite) (s.putCk v .nothing) =
      .next (s.putCk (B.foldl Config.checksum.step v) .nothing, List.replicate B.length .nothing) := by
  induction B generalizing v with
  | nil => rfl
  | cons b B ih => exact runAll_cons (exec_ckWrite b _) (ih (Config.checksum.step v b))

/-- `CK.RESET` and then `CK.WRITE` of each byte of `B` leave `CK(B)` in `ck` (R113). -/
theorem runAll_ckReset_ckWrite (B : List Byte) (s : State) :
    runAll (.ckReset :: B.map Instr.ckWrite) s =
      .next (s.putCk (ckOf Config.checksum B) .nothing, List.replicate (B.length + 1) .nothing) :=
  runAll_cons (exec_ckReset s) (runAll_ckWrite s Config.checksum.init B)

/-- Folding further bytes needs no memory of those before them but their checksum (R113). -/
theorem ckOf_append (c : Checksum) (B C : List Byte) : ckOf c (B ++ C) = C.foldl c.step (ckOf c B) := List.foldl_append

/-- Settles O11: the operations fold the bytes by induction on them, and a fold of `B ++ C` goes on from the fold of `B`. -/
theorem checksumIsTheLeftFold : Obligations.ChecksumIsTheLeftFold :=
  ⟨runAll_ckReset_ckWrite, fun c => ⟨ckOf_nil c, ckOf_append_singleton c, ckOf_append c⟩⟩

/-- `CKSUM` of `B` returns `CK(B)`, and writes nothing but `ck` and the result (R97, R113). -/
theorem runAll_cksumOps (B : List Byte) (s : State) :
    runAll (cksumOps B) s =
      .next (s.putCk (ckOf Config.checksum B) (.value (ckOf Config.checksum B)),
        List.replicate (B.length + 1) .nothing ++ [.value (ckOf Config.checksum B)]) :=
  runAll_append (runAll_ckReset_ckWrite B s) (runAll_cons (exec_ckValue _) (runAll_nil _))

/-- With `CK(B)` in `ck`, `CK.WRITE` of that same byte leaves the valid sentinel, which `CK.VALUE` returns (R114). -/
theorem runAll_ckWrite_own_checksum {s : State} {B : List Byte} (hck : s.ck = ckOf Config.checksum B) :
    runAll [.ckWrite (ckOf Config.checksum B), .ckValue] s = .next (s.putCk 0#8 (.value 0#8), [.nothing, .value 0#8]) := by
  have hwrite : exec (.ckWrite (ckOf Config.checksum B)) s = .next (s.putCk 0#8 .nothing) := by
    rw [exec_ckWrite, hck, step_ckOf_self]
  exact runAll_cons hwrite (runAll_cons (exec_ckValue _) (runAll_nil _))

/-- Settles O12: the residue law is the checksum's own, and the operations run into it with `CK(B)` in `ck`. -/
theorem selfVerifyingResidue : Obligations.SelfVerifyingResidue := by
  unfold Obligations.SelfVerifyingResidue
  refine ⟨step_ckOf_self, fun B s => ?_, fun _ _ hself _ => hself _⟩
  have hrun := runAll_append (runAll_cksumOps B s) (runAll_ckWrite_own_checksum rfl)
  rw [List.append_assoc] at hrun
  exact ⟨_, hrun, rfl, rfl, rfl⟩

/-- Settles O13: `CK(B)` leaves the sentinel by the residue law, and an injective `CK_STEP` lets no other byte leave it. -/
theorem injectiveResidueTest : Obligations.InjectiveResidueTest := by
  unfold Obligations.InjectiveResidueTest
  refine fun c hinj B x => ⟨fun hzero => ?_, fun hx => hx ▸ step_ckOf_self c B⟩
  have hsame : c.step (ckOf c B) x = c.step (ckOf c B) (ckOf c B) := hzero.trans (step_ckOf_self c B).symm
  exact hinj _ _ _ hsame

end Sys2Proof.Machine
end

section
/-! PROOFS. The arms of `SER.NEXT` as the owner sees them (R122 to R129), the three other commands of the serializer (R120, R130,
R132), and how the phase moves (R134). -/

namespace Sys2Proof.Machine

/-- Settles O15: the pending code is looked at before the phase. -/
theorem pendingCodeIsReturnedFirst : Obligations.PendingCodeIsReturnedFirst := by
  unfold Obligations.PendingCodeIsReturnedFirst
  refine fun s => ⟨fun hpend => ?_, fun hpend => ?_⟩
  · exact execSerNext_of_next (Serializer.next_pending (by rw [hpend, Pend.code]))
  · exact execSerNext_of_next (Serializer.next_pending (by rw [hpend, Pend.code]))

/-- Settles O16: the flags' arms do not go through `Emit`. -/
theorem flagsAreSentUnescaped : Obligations.FlagsAreSentUnescaped := by
  unfold Obligations.FlagsAreSentUnescaped
  refine fun s hpend => ⟨fun hph => ?_, fun hph => ?_⟩
  · exact execSerNext_of_next (Serializer.next_sof hpend hph)
  · exact execSerNext_of_next (Serializer.next_eof hpend hph)

/-- A header byte determines the two fields it was packed from (R83, R84). -/
theorem pack_eq_iff {sv : BitVec 2} {n : BitVec 6} {h : Byte} :
    pack sv n = h ↔ sv = headerService h ∧ n = headerLength h := by
  constructor
  · rintro rfl
    rw [headerService_pack, headerLength_pack]
    exact ⟨rfl, rfl⟩
  · rintro ⟨rfl, rfl⟩
    exact pack_headerService_headerLength h

/-- Settles O17: the arm folds and emits the same byte, and a reserved header is taken apart into its fields. -/
theorem headerArm : Obligations.HeaderArm := by
  unfold Obligations.HeaderArm
  refine ⟨?_, fun sv n => ⟨pack_eq_iff, pack_eq_iff⟩⟩
  rintro s h hpend hph rfl
  exact execSerNext_of_next (Serializer.next_header hpend hph)

/-- Settles O18: below the length the buffer's read answers, with the byte stored there. -/
theorem payloadArm : Obligations.PayloadArm := by
  unfold Obligations.PayloadArm
  intro s b hpend hph hidx hget
  exact execSerNext_of_next (Serializer.next_payload hpend hph (memRead_eq_some.mpr ⟨hidx, hget⟩))

/-- Settles O19: the arm emits `s_ck` and writes the phase and the pending code only. -/
theorem crcArm : Obligations.CrcArm := by
  unfold Obligations.CrcArm
  intro s hpend hph
  exact execSerNext_of_next (Serializer.next_crc hpend hph)

/-- Settles O14: every register of the serializer is written, whatever it held, and the load ports are read below `ld_len`. -/
theorem serializerLoad : Obligations.SerializerLoad := by
  unfold Obligations.SerializerLoad
  refine ⟨fun f e s => ⟨_, rfl, rfl, rfl, toNat_payload_length f⟩, fun esc sv n p e => ?_⟩
  refine ⟨loadedFrame sv n p, rfl, rfl, ?_, fun k hk => ?_⟩
  · have hn : n.toNat ≤ p.toList.length := by
      rw [Vector.length_toList]
      omega
    exact List.length_take_of_le hn
  · rw [loadedFrame, List.getElem?_take_of_lt hk, Vector.getElem?_toList]

/-- `SER.RESTART` writes nothing but the serializer, which it starts again (R130). -/
theorem exec_serRestart (s : State) :
    exec .serRestart s = .next (s.putSer (s.ser.restart Config.checksum) .nothing) := rfl

/-- Starting the held Frame again is loading it (R130). -/
theorem Serializer.restart_eq_load {c : Checksum} {z : Serializer} {f : Frame} (hservice : f.service = z.service)
    (hpayload : f.payload = z.payload) (hlen : f.payload.length = z.len.toNat) :
    z.restart c = z.load c f z.eof := by
  rw [load, hlen, hservice, hpayload, BitVec.ofNat_toNat, BitVec.setWidth_eq, restart]

/-- Settles O23: what RESTART writes does not depend on what it finds, and it is what LOAD writes beside the Frame. -/
theorem serializerRestart : Obligations.SerializerRestart := by
  unfold Obligations.SerializerRestart
  refine ⟨exec_serRestart, fun s t hexec => ?_, fun s f hservice hpayload hlen => ?_, fun _ _ _ _ _ => rfl⟩
  · rw [exec_serRestart, Host.Outcome.next.injEq] at hexec
    subst hexec
    exact exec_serRestart _
  · rw [exec_serRestart, Serializer.restart_eq_load hservice hpayload hlen]
    rfl

section
variable {c : Checksum} {z : Serializer} {r : Serializer × Pull}

/-- `SER.NEXT` returns `Fault` when there is nothing left to send, and otherwise a byte (R128, R132). -/
theorem Serializer.next_pull_eq_fault_iff (hnext : z.next c = some r) : r.2 = .fault ↔ z.isDone = true := by
  rw [isDone_iff]
  obtain ⟨code, hcode, rfl⟩ | ⟨hpend, ⟨hph, rfl⟩ | ⟨hph, rfl⟩ | ⟨hph, b, -, rfl⟩ | ⟨hph, rfl⟩ | ⟨hph, rfl⟩ |
    ⟨hph, rfl⟩⟩ := next_cases hnext
  · have hpend : z.pend ≠ .empty := fun hpend => by simp [hpend, Pend.code] at hcode
    simp [nextPending, hpend]
  · simp [nextSof, hph]
  · simp [nextHeader, emit, hph]
  · simp [nextPayload, emit, hph]
  · simp [nextCrc, emit, hph]
  · simp [nextEof, hph]
  · simp [nextEnd, hph, hpend]

end

theorem Pull.result_eq_fault_iff (p : Pull) : p.result = .fault ↔ p = .fault := by
  cases p <;> simp [Pull.result]

/-- The result of a `SER.NEXT` that completes is `Fault` exactly when it found the serializer done (R128, R132). -/
theorem exec_serNext_result_eq_fault_iff {s t : State} (hexec : exec .serNext s = .next t) :
    t.result = .fault ↔ s.serDone = true := by
  obtain ⟨z, p, hnext, rfl⟩ := execSerNext_next hexec
  exact p.result_eq_fault_iff.trans (Serializer.next_pull_eq_fault_iff hnext)

/-- `SER.NEXT` with nothing left to send: the overrun is recorded and nothing else changes (R128). -/
theorem exec_serNext_of_done {s : State} (hdone : s.serDone = true) :
    exec .serNext s = .next (s.putSer s.ser.raiseOverrun .fault) := by
  obtain ⟨hph, hpend⟩ := s.ser.isDone_iff.mp hdone
  exact execSerNext_of_next (Serializer.next_ended hpend hph)

/-- Settles O24: the arm of END is the only one that returns `Fault`, and the status is the condition it is taken under. -/
theorem serializerDone : Obligations.SerializerDone := by
  unfold Obligations.SerializerDone
  refine ⟨fun _ => rfl, fun s => s.ser.isDone_iff, fun s => ⟨fun hdone => ?_, ?_⟩, fun _ _ => rfl⟩
  · exact ⟨_, exec_serNext_of_done hdone, rfl⟩
  · rintro ⟨t, hexec, hfault⟩
    exact (exec_serNext_result_eq_fault_iff hexec).mp hfault

/-- The phase after a `SER.NEXT` with no code pending: the nine lines of R134. -/
def Serializer.phaseAfter (z : Serializer) : Phase :=
  match z.phase with
  | .sof => .header
  | .header => if z.len = 0 then .crc else .payload
  | .payload => if z.idx + 1 = z.len then .crc else .payload
  | .crc => if z.eof then .eof else .ended
  | .eof | .ended => .ended

section
variable {c : Checksum} {z : Serializer} {r : Serializer × Pull}

/-- A pending code is sent in the phase it was left in (R122). -/
theorem Serializer.next_phase_of_pend (hnext : z.next c = some r) (hpend : z.pend ≠ .empty) : r.1.phase = z.phase := by
  obtain ⟨code, -, rfl⟩ | ⟨hempty, -⟩ := next_cases hnext
  · rfl
  · exact absurd hempty hpend

/-- With no code pending each arm moves the phase as R134 lists. -/
theorem Serializer.next_phase (hnext : z.next c = some r) (hpend : z.pend = .empty) : r.1.phase = z.phaseAfter := by
  obtain ⟨code, hcode, -⟩ | ⟨-, ⟨hph, rfl⟩ | ⟨hph, rfl⟩ | ⟨hph, b, -, rfl⟩ | ⟨hph, rfl⟩ | ⟨hph, rfl⟩ | ⟨hph, rfl⟩⟩ :=
    next_cases hnext
  · simp [hpend, Pend.code] at hcode
  · simp [phaseAfter, hph, nextSof]
  · simp [phaseAfter, hph, nextHeader, emit]
  · simp [phaseAfter, hph, nextPayload, emit]
  · simp [phaseAfter, hph, nextCrc, emit]
  · simp [phaseAfter, hph, nextEof]
  · simp [phaseAfter, hph, nextEnd]

end

/-- Settles O25: LOAD and RESTART start at SOF, NEXT moves the phase by its arm, and nothing else reaches the serializer. -/
theorem phaseTransitions : Obligations.PhaseTransitions := by
  unfold Obligations.PhaseTransitions
  refine ⟨fun s rest hin => ⟨_, step_of_hardwareReset hin, rfl⟩, fun i s t hexec => ?_⟩
  obtain ⟨rfl, p, hnext⟩ | ⟨f, e, rfl, hser⟩ | ⟨rfl, hser⟩ | ⟨hnext, hload, hrestart, hser⟩ := exec_next_ser_cases hexec
  · refine ⟨by simp, fun _ => Serializer.next_phase_of_pend hnext, fun _ hpend => ?_, by simp⟩
    have hphase : t.ser.phase = s.ser.phaseAfter := Serializer.next_phase hnext hpend
    have hheader (hph : s.ser.phase = .header) (hlen : s.ser.len > 0) : s.ser.phaseAfter = .payload := by
      rw [Serializer.phaseAfter, hph]
      exact if_neg (BitVec.ne_of_lt hlen).symm
    have hpayload (hph : s.ser.phase = .payload) (hidx : s.ser.idx + 1 < s.ser.len) : s.ser.phaseAfter = .payload := by
      rw [Serializer.phaseAfter, hph]
      exact if_neg (BitVec.ne_of_lt hidx)
    have hended (hph : s.ser.phase = .ended) : s.ser.phaseAfter = .ended ∧ t.result = .fault :=
      ⟨by rw [Serializer.phaseAfter, hph],
        (exec_serNext_result_eq_fault_iff hexec).mpr (s.ser.isDone_iff.mpr ⟨hph, hpend⟩)⟩
    rw [hphase]
    refine ⟨?_, ?_, hheader, hpayload, ?_, ?_, ?_, ?_, hended⟩
    all_goals simp +contextual [Serializer.phaseAfter]
  · simp [hser, Serializer.load]
  · simp [hser, Serializer.restart]
  · simp [hnext, hload, hrestart, hser]

/-- The arms that send a content byte `x` (R124 to R126): the header's, the payload's, the checksum's. -/
theorem Serializer.next_emit {c : Checksum} {z : Serializer} {x : Byte} (hpend : z.pend = .empty)
    (hx : (z.phase = .header ∧ x = z.headerByte) ∨
      (z.phase = .payload ∧ z.idx < z.len ∧ z.payload[z.idx.toNat]? = some x) ∨ (z.phase = .crc ∧ x = z.ck)) :
    ∃ z', z.next c = some (emit x z') := by
  obtain ⟨hph, rfl⟩ | ⟨hph, hidx, hget⟩ | ⟨hph, rfl⟩ := hx
  · exact ⟨_, next_header hpend hph⟩
  · exact ⟨_, next_payload hpend hph (memRead_eq_some.mpr ⟨hidx, hget⟩)⟩
  · exact ⟨_, next_crc hpend hph⟩

/-- Settles O26: `Emit` leaves the second byte of `enc(x)`, if there is one, pending, and the pending code is sent next. -/
theorem contentGoesOutAsEnc : Obligations.ContentGoesOutAsEnc := by
  unfold Obligations.ContentGoesOutAsEnc
  intro s t x hpend hx hexec
  obtain ⟨z, hnext⟩ := Serializer.next_emit (c := Config.checksum) hpend hx
  have ht : t = s.putSer (emit x z).1 (.byte (emitByte x)) :=
    Host.Outcome.next.inj (hexec.symm.trans (execSerNext_of_next hnext))
  subst ht
  refine ⟨emitByte x, rfl, ?_⟩
  rw [← emit_enc]
  cases hcode : (emitPend x).code with
  | none => exact .inl ⟨rfl, (Pend.code_eq_none _).mp hcode⟩
  | some code => exact .inr ⟨code, rfl, execSerNext_of_next (Serializer.next_pending hcode)⟩

end Sys2Proof.Machine
end

section
/-! PROOFS. Pulling again and again: `SER.NEXT` returns what the serializer has to send (R133), and past the end `Fault` (R128). -/

namespace Sys2Proof.Machine

/-- Pulling past the end returns `Fault` every time and writes nothing but the fault bit (R128). -/
theorem runAll_serNext_of_done {s : State} (hdone : s.serDone = true) (n : Nat) :
    ∃ r, runAll (List.replicate n .serNext) s =
      .next (s.putSer { s.ser with fault := s.ser.fault || decide (0 < n) } r, List.replicate n .fault) := by
  induction n generalizing s with
  | zero =>
    refine ⟨s.result, ?_⟩
    rw [decide_eq_false (Nat.lt_irrefl 0), Bool.or_false]
    rfl
  | succ n ih =>
    obtain ⟨r, hrun⟩ := ih (s := s.putSer s.ser.raiseOverrun .fault) hdone
    refine ⟨r, ?_⟩
    rw [decide_eq_true n.succ_pos, Bool.or_true]
    exact runAll_cons (exec_serNext_of_done hdone) hrun

/-- Settles O20, by induction on the pulls: each leaves the phase and the pending code that the next one needs. -/
theorem pullPastTheEndFaults : Obligations.PullPastTheEndFaults := by
  unfold Obligations.PullPastTheEndFaults
  intro s hph hpend
  have hdone : s.serDone = true := s.ser.isDone_iff.mpr ⟨hph, hpend⟩
  refine ⟨exec_serNext_of_done hdone, fun n => ?_⟩
  obtain ⟨r, hrun⟩ := runAll_serNext_of_done hdone n
  exact ⟨_, hrun, rfl, rfl, rfl⟩

/-- Under the invariants the serializer is done exactly when nothing is left to send (R29, R133). -/
theorem Serializer.Inv.isDone_iff_toSend {c : Checksum} {z : Serializer} (h : z.Inv c) :
    z.isDone = true ↔ z.toSend c = [] := by
  refine ⟨toSend_of_isDone, fun hnil => ?_⟩
  by_contra hmore
  obtain ⟨b, z', -, hsend⟩ := h.next_of_not_done (Bool.eq_false_iff.mpr hmore)
  simp [hsend] at hnil

/-- `k` pulls return the first `k` bytes the serializer has to send, and leave the others to send. -/
theorem runAll_serNext_toSend {k : Nat} {s : State} (h : s.ser.Inv Config.checksum)
    (hk : k ≤ (s.ser.toSend Config.checksum).length) :
    ∃ z r, runAll (List.replicate k .serNext) s =
        .next (s.putSer z r, ((s.ser.toSend Config.checksum).take k).map Result.byte) ∧
      z.Inv Config.checksum ∧ z.toSend Config.checksum = (s.ser.toSend Config.checksum).drop k := by
  induction k generalizing s with
  | zero => exact ⟨s.ser, s.result, rfl, h, rfl⟩
  | succ k ih =>
    have hmore : s.ser.isDone = false := by
      rw [Bool.eq_false_iff, Ne, h.isDone_iff_toSend]
      intro hnil
      simp [hnil] at hk
    obtain ⟨b, z, hnext, hsend⟩ := h.next_of_not_done hmore
    rw [hsend] at hk ⊢
    obtain ⟨z', r, hrun, hinv, hrest⟩ := ih (s := s.putSer z (.byte b)) (Serializer.next_inv h hnext)
      (Nat.le_of_succ_le_succ hk)
    have hpull : exec .serNext s = .next (s.putSer z (.byte b)) := execSerNext_of_next hnext
    exact ⟨z', r, runAll_cons hpull hrun, hinv, hrest⟩

/-- Either way of starting a serialization puts the serializer where `SER.LOAD f, e` does (R120, R130). -/
theorem exec_eq_load {f : Frame} {e : Bool} {s : State} {i : Instr}
    (hi : i = .serLoad f e ∨ (i = .serRestart ∧ s.ser.service = f.service ∧ s.ser.len.toNat = f.payload.length ∧
      s.ser.payload = f.payload ∧ s.ser.eof = e)) :
    exec i s = .next (s.putSer (s.ser.load Config.checksum f e) .nothing) := by
  obtain rfl | ⟨rfl, hservice, hlen, hpayload, rfl⟩ := hi
  · rfl
  · rw [exec_serRestart, Serializer.restart_eq_load hservice.symm hpayload.symm hlen.symm]

/-- Settles O27: the start leaves all of `wire(f, e)` to send, each pull sends one byte of it, and past the end is overrun. -/
theorem serializerSpellsTheWire : Obligations.SerializerSpellsTheWire := by
  unfold Obligations.SerializerSpellsTheWire
  intro f e s i hi
  have hstart := exec_eq_load hi
  have hpulls {k : Nat} (hk : k ≤ (wireOf Config.checksum f e).length) :
      ∃ z r, runAll (i :: List.replicate k .serNext) s =
          .next (s.putSer z r, .nothing :: ((wireOf Config.checksum f e).take k).map Result.byte) ∧
        z.Inv Config.checksum ∧ z.toSend Config.checksum = (wireOf Config.checksum f e).drop k := by
    obtain ⟨z, r, hrun, hinv, hrest⟩ := runAll_serNext_toSend
      (s := s.putSer (s.ser.load Config.checksum f e) .nothing) (Serializer.load_inv f e) hk
    exact ⟨z, r, runAll_cons hstart hrun, hinv, hrest⟩
  refine ⟨fun k hk => ?_, fun n => ?_⟩
  · obtain ⟨z, r, hrun, hinv, hrest⟩ := hpulls hk.le
    refine ⟨_, hrun, Bool.eq_false_iff.mpr fun hdone => ?_⟩
    have hnil := hrest.symm.trans (hinv.isDone_iff_toSend.mp hdone)
    exact hk.not_ge (List.drop_eq_nil_iff.mp hnil)
  · obtain ⟨z, r, hrun, hinv, hrest⟩ := hpulls le_rfl
    rw [List.drop_length] at hrest
    rw [List.take_length] at hrun
    have hdone : z.isDone = true := hinv.isDone_iff_toSend.mpr hrest
    obtain ⟨r', hfaults⟩ := runAll_serNext_of_done (s := s.putSer z r) hdone n
    rw [List.replicate_add]
    exact ⟨_, runAll_append hrun hfaults, hdone, length_wireOf_le Config.checksum f e⟩

end Sys2Proof.Machine
end

section
/-! PROOFS. The receiver's steps one at a time (R141 to R148): a flag, an escape flag, a content byte in each state. -/

namespace Sys2Proof.Machine

section
variable {c : Checksum} {d : Deserializer} {f : Frame} {x : Byte}

/-- The label of a raw `0x55` is `Resync` where content was in progress, else `Start` (R141, R153). -/
theorem Deserializer.label_flag : d.label c leadingFlag =
    if d.state = .readPayload ∨ d.state = .readCrc ∨ (d.state = .readHeader ∧ d.esc = true) then .resync else .start := by
  rw [label, if_pos rfl]
  cases hst : d.state <;> simp

/-- With the whole Frame stored, the residue decides whether it is yielded (R148). -/
theorem Deserializer.bodyCrc_of_heldFrame (hheld : d.heldFrame = some f) :
    d.bodyCrc c x = some (reset c, if c.step d.ck x = 0#8 then some f else none) := by
  by_cases hres : c.step d.ck x = 0#8 <;> simp [bodyCrc, residueValid_iff, hres, hheld]

end

/-- Settles O34: step 1 of R140 is tested first, and the registers it writes are all of the receiver's. -/
theorem rawFlagResynchronizes : Obligations.RawFlagResynchronizes := by
  unfold Obligations.RawFlagResynchronizes
  refine ⟨fun i s hraw => ?_, fun _ _ => Deserializer.label_flag⟩
  rw [exec_of_rawByte hraw]
  exact receive_of_push Deserializer.push_flag

/-- Settles O35: with no escape pending an escape flag is step 3 of R140. -/
theorem rawEscapeOpensAnEscape : Obligations.RawEscapeOpensAnEscape := by
  unfold Obligations.RawEscapeOpensAnEscape
  intro i s hraw hesc
  rw [exec_of_rawByte hraw]
  exact receive_of_push (Deserializer.push_escape hesc)

/-- Settles O37: the body rule of `SearchSof` answers the state it is given, whose escape bit is cleared. -/
theorem searchSofIgnoresContent : Obligations.SearchSofIgnoresContent := by
  unfold Obligations.SearchSofIgnoresContent
  intro i s x hx hst
  exact exec_of_delivers hx (Deserializer.body_searchSof (d := s.des.clearEsc) hst)

/-- Settles O38: the body rule of `ReadHeader` writes every register but the escape bit. -/
theorem readHeaderTakesTheHeader : Obligations.ReadHeaderTakesTheHeader := by
  unfold Obligations.ReadHeaderTakesTheHeader
  intro i s x hx hst
  exact exec_of_delivers hx (Deserializer.body_readHeader (d := s.des.clearEsc) hst)

/-- Settles O39: the store is at the end of the bytes held. -/
theorem readPayloadStoresTheByte : Obligations.ReadPayloadStoresTheByte := by
  unfold Obligations.ReadPayloadStoresTheByte
  intro i s x hx hst hlt hlen
  exact exec_of_delivers_readPayload hx hst hlt hlen

/-- Settles O40: the Frame given is the one held, and the residue decides whether it is the result. -/
theorem readCrcYieldsOrDrops : Obligations.ReadCrcYieldsOrDrops := by
  unfold Obligations.ReadCrcYieldsOrDrops
  intro i s x f hx hst hlen hservice hpayload
  have hheld : s.des.clearEsc.heldFrame = some f := Deserializer.heldFrame_eq_some.mpr ⟨hlen, hservice, hpayload⟩
  have hbody := (Deserializer.body_readCrc (d := s.des.clearEsc) hst).trans
    (Deserializer.bodyCrc_of_heldFrame (c := Config.checksum) (x := x) hheld)
  rw [exec_of_delivers hx hbody, apply_ite yieldResult]
  rfl

end Sys2Proof.Machine
end

section
/-! PROOFS. What a raw byte that is answered did, by inversion: when a Frame is yielded (R151) and how `d_state` moves (R152). -/

namespace Sys2Proof.Machine

section
variable {c : Checksum} {d d' : Deserializer} {y : Option Frame} {b x : Byte}

/-- Everything the body logic can do with a content byte (R145 to R148): one case for each state, the last by the residue. -/
theorem Deserializer.body_cases (h : d.body c x = some (d', y)) :
    (d.state = .searchSof ∧ d' = d ∧ y = none) ∨
    (d.state = .readHeader ∧ d' = d.bodyHeader c x ∧ y = none) ∨
    (d.state = .readPayload ∧ ∃ stored, memWrite d.payload d.len d.idx x = some stored ∧
      d' = d.bodyPayload c x stored ∧ y = none) ∨
    (d.state = .readCrc ∧ d' = reset c ∧
      ((c.step d.ck x = 0#8 ∧ ∃ f, d.heldFrame = some f ∧ y = some f) ∨ (c.step d.ck x ≠ 0#8 ∧ y = none))) := by
  cases hst : d.state
  case searchSof => simpa [body_searchSof hst, eq_comm] using h
  case readHeader => simpa [body_readHeader hst, eq_comm] using h
  case readPayload => simpa [body, hst, eq_comm] using h
  case readCrc =>
    rw [body_readCrc hst] at h
    by_cases hres : c.step d.ck x = 0#8
    · rw [bodyCrc, if_pos ((residueValid_iff _).mpr hres), Option.map_eq_some_iff] at h
      obtain ⟨f, hheld, rfl, rfl⟩ := h
      simp [hres, hheld]
    · rw [bodyCrc, if_neg (hres ∘ (residueValid_iff _).mp), Option.some.injEq, Prod.mk.injEq] at h
      obtain ⟨rfl, rfl⟩ := h
      simp [hres]

/-- The receiver answers a byte in one way only. -/
theorem recv_unique {r : Recv} {d₁ d₂ : Deserializer} {y₁ y₂ : Option Frame} (h₁ : r = some (d₁, y₁))
    (h₂ : r = some (d₂, y₂)) : d₁ = d₂ ∧ y₁ = y₂ :=
  Prod.ext_iff.mp (Option.some.inj (h₁.symm.trans h₂))

/-- Everything `DES.PUSH` can do (R140): one of the first three steps, which yield nothing, or the body logic. -/
theorem Deserializer.push_cases (h : d.push c b = some (d', y)) :
    (b = leadingFlag ∧ d' = d.takeFlag c ∧ y = none) ∨
    (d.esc = false ∧ b = escapeFlag ∧ d' = d.takeEscape ∧ y = none) ∨
    (d.esc = true ∧ b ≠ leadingFlag ∧ dec b = none ∧ d' = reset c ∧ y = none) ∨
    ∃ x, contentByte d.esc b = some x ∧ d.clearEsc.body c x = some (d', y) := by
  obtain rfl | ⟨hesc, rfl⟩ | ⟨hesc, hflag, hbad⟩ | ⟨x, hx⟩ := raw_cases d.esc b
  · exact .inl ⟨rfl, recv_unique h push_flag⟩
  · exact .inr (.inl ⟨hesc, rfl, recv_unique h (push_escape hesc)⟩)
  · exact .inr (.inr (.inl ⟨hesc, hflag, hbad, recv_unique h (push_badCode hesc hflag hbad)⟩))
  · exact .inr (.inr (.inr ⟨x, hx, push_content hx ▸ h⟩))

/-- A byte that gives the body logic no content byte yields nothing. -/
theorem Deserializer.push_yields_none (hx : contentByte d.esc b = none) (h : d.push c b = some (d', y)) : y = none := by
  obtain ⟨-, -, hy⟩ | ⟨-, -, -, hy⟩ | ⟨-, -, -, -, hy⟩ | ⟨x, hsome, -⟩ := push_cases h
  · exact hy
  · exact hy
  · exact hy
  · simp [hx] at hsome

/-- A content byte yields `f` exactly when it is the checksum byte with a valid residue and `f` is the Frame held (R148, R151). -/
theorem Deserializer.body_yields_iff {f : Frame} (h : d.body c x = some (d', y)) :
    y = some f ↔ d.state = .readCrc ∧ f.service = d.service ∧ f.payload = d.payload.take d.len.toNat ∧
      c.step d.ck x = 0#8 := by
  obtain ⟨hst, -, rfl⟩ | ⟨hst, -, rfl⟩ | ⟨hst, stored, -, -, rfl⟩ | ⟨hst, -, ⟨hres, g, hheld, rfl⟩ | ⟨hres, rfl⟩⟩ :=
    body_cases h
  · simp [hst]
  · simp [hst]
  · simp [hst]
  · obtain ⟨hlen, -, -⟩ := heldFrame_eq_some.mp hheld
    have hf : d.heldFrame = some f ↔ f.service = d.service ∧ f.payload = d.payload.take d.len.toNat :=
      heldFrame_eq_some.trans (and_iff_right hlen)
    simp [hst, hres, ← hf, hheld]
  · simp [hres]

/-- A checksum byte with a valid residue that is answered yields a Frame (R148). -/
theorem Deserializer.body_yields_some (h : d.body c x = some (d', y)) (hst : d.state = .readCrc)
    (hres : c.step d.ck x = 0#8) : ∃ f, y = some f := by
  obtain ⟨h', -⟩ | ⟨h', -⟩ | ⟨h', -⟩ | ⟨-, -, ⟨-, f, -, hy⟩ | ⟨hne, -⟩⟩ := body_cases h
  · simp [hst] at h'
  · simp [hst] at h'
  · simp [hst] at h'
  · exact ⟨f, hy⟩
  · exact absurd hres hne

/-- The label of a byte that stands for the content byte `x` is the label of `x` (R142, R144, R153). -/
theorem Deserializer.label_content (hx : contentByte d.esc b = some x) : d.label c b = d.bodyLabel c x := by
  cases hesc : d.esc
  · obtain ⟨hflag, hescape, rfl⟩ := contentByte_of_not_esc (hesc ▸ hx)
    simp [label, hflag, hesc, hescape]
  · obtain ⟨hflag, hcode⟩ := contentByte_of_esc (hesc ▸ hx)
    simp [label, hflag, hesc, hcode]

theorem Deserializer.bodyLabel_eq_frameOk_iff :
    d.bodyLabel c x = .frameOk ↔ d.state = .readCrc ∧ c.step d.ck x = 0#8 := by
  unfold bodyLabel
  split_ifs <;> simp_all [residueValid_iff]

/-- The label is `FrameOk` exactly when the byte gives a content byte to `ReadCrc` with a valid residue (R153). -/
theorem Deserializer.label_eq_frameOk_iff :
    d.label c b = .frameOk ↔ d.state = .readCrc ∧ ∃ x, contentByte d.esc b = some x ∧ c.step d.ck x = 0#8 := by
  obtain rfl | ⟨hesc, rfl⟩ | ⟨hesc, hflag, hbad⟩ | ⟨x, hx⟩ := raw_cases d.esc b
  · rw [label_flag]
    split_ifs <;> simp [contentByte]
  · have hne : escapeFlag ≠ leadingFlag := by decide
    simp [label, contentByte, hesc, hne]
  · simp [label, contentByte, hesc, hflag, hbad]
  · rw [label_content hx, bodyLabel_eq_frameOk_iff, hx]
    simp

/-- What a push yields: nothing but the Frame held, and that only for a content byte with a valid residue (R151). -/
theorem Deserializer.push_yields_iff {f : Frame} (h : d.push c b = some (d', y)) :
    y = some f ↔ d.state = .readCrc ∧ f.service = d.service ∧ f.payload = d.payload.take d.len.toNat ∧
      ∃ x, contentByte d.esc b = some x ∧ c.step d.ck x = 0#8 := by
  cases hx : contentByte d.esc b with
  | none => simp [push_yields_none hx h]
  | some x =>
    rw [push_content hx] at h
    simpa using body_yields_iff (f := f) h

/-- A push that is answered yields a Frame when its label is `FrameOk` (R151, R153). -/
theorem Deserializer.push_yields_of_frameOk (h : d.push c b = some (d', y)) (hok : d.label c b = .frameOk) :
    ∃ f, y = some f := by
  obtain ⟨hst, x, hx, hres⟩ := label_eq_frameOk_iff.mp hok
  rw [push_content hx] at h
  exact body_yields_some h hst hres

/-- No content byte leads to `ReadHeader` (R152). -/
theorem Deserializer.body_state_ne_readHeader (h : d.body c x = some (d', y)) : d'.state ≠ .readHeader := by
  obtain ⟨hst, rfl, -⟩ | ⟨-, rfl, -⟩ | ⟨-, stored, -, rfl, -⟩ | ⟨-, rfl, -⟩ := body_cases h
  · simp [hst]
  · rw [bodyHeader]
    split_ifs <;> simp
  · rw [bodyPayload]
    split_ifs <;> simp
  · simp [reset]

/-- `ReadHeader` is entered only by a raw `0x55` (R152). -/
theorem Deserializer.push_state_ne_readHeader (h : d.push c b = some (d', y)) (hb : b ≠ leadingFlag)
    (hst : d.state ≠ .readHeader) : d'.state ≠ .readHeader := by
  obtain ⟨hflag, -⟩ | ⟨-, -, rfl, -⟩ | ⟨-, -, -, rfl, -⟩ | ⟨x, -, hbody⟩ := push_cases h
  · exact absurd hflag hb
  · exact hst
  · simp [reset]
  · exact body_state_ne_readHeader hbody

/-- `SearchSof` is left only by a raw `0x55` (R152). -/
theorem Deserializer.push_searchSof (h : d.push c b = some (d', y)) (hb : b ≠ leadingFlag)
    (hst : d.state = .searchSof) : d'.state = .searchSof := by
  obtain ⟨hflag, -⟩ | ⟨-, -, rfl, -⟩ | ⟨-, -, -, rfl, -⟩ | ⟨x, -, hbody⟩ := push_cases h
  · exact absurd hflag hb
  · exact hst
  · rfl
  · obtain ⟨rfl, -⟩ := recv_unique hbody (body_searchSof hst)
    exact hst

/-- A byte that is no escape code stands for nothing (R87). -/
theorem dec_eq_none (h55 : b ≠ escapeCode55) (hAA : b ≠ escapeCodeAA) : dec b = none := by
  rw [dec, if_neg h55, if_neg hAA]

end

theorem yieldResult_eq_frame_iff {y : Option Frame} {f : Frame} : yieldResult y = .frame f ↔ y = some f := by
  cases y <;> simp [yieldResult]

/-- The one raw byte of `DES.PUSH b` gives the body logic its content byte (R140). -/
theorem delivers_desPush (b : Byte) (esc : Bool) : (Instr.desPush b).delivers esc = contentByte esc b := rfl

/-- Settles O41: the residue test of `ReadCrc` is what decides both the yield and the label. -/
theorem onlyReadCrcYields : Obligations.OnlyReadCrcYields := by
  unfold Obligations.OnlyReadCrcYields
  intro b s t hexec
  obtain ⟨d, y, hpush, rfl⟩ := receive_next hexec
  have hyields (f : Frame) := Deserializer.push_yields_iff (f := f) hpush
  simp only [State.putDes_result, yieldResult_eq_frame_iff, delivers_desPush]
  refine ⟨hyields, Deserializer.push_yields_of_frameOk hpush, ?_⟩
  rintro ⟨f, hf⟩
  obtain ⟨hst, -, -, hx⟩ := (hyields f).mp hf
  exact Deserializer.label_eq_frameOk_iff.mpr ⟨hst, hx⟩

/-- Settles O42: the first three steps of a push move `d_state` whatever it is, the body logic by the state it finds. -/
theorem receiverTransitions : Obligations.ReceiverTransitions := by
  unfold Obligations.ReceiverTransitions
  refine ⟨fun s rest hin => ⟨_, step_of_hardwareReset hin, rfl, rfl⟩, fun s => ⟨_, exec_desReset s, rfl, rfl⟩,
    fun i s t hexec hport => ?_, fun b s t hexec => ?_⟩
  · exact congrArg Deserializer.state (exec_next_agreeAt hexec hport)
  · obtain ⟨d, y, hpush, rfl⟩ := receive_next hexec
    refine ⟨?_, ?_, ?_, fun x hx => ?_, Deserializer.push_state_ne_readHeader hpush, Deserializer.push_searchSof hpush⟩
    · rintro rfl
      obtain ⟨rfl, rfl⟩ := recv_unique hpush Deserializer.push_flag
      exact ⟨rfl, rfl⟩
    · intro hflag hesc h55 hAA
      obtain ⟨rfl, rfl⟩ := recv_unique hpush (Deserializer.push_badCode hesc hflag (dec_eq_none h55 hAA))
      exact ⟨rfl, rfl⟩
    · rintro rfl hesc
      obtain ⟨rfl, rfl⟩ := recv_unique hpush (Deserializer.push_escape hesc)
      exact ⟨rfl, rfl⟩
    · rw [Deserializer.push_content hx] at hpush
      have hcases := Deserializer.body_cases hpush
      rw [Deserializer.clearEsc_state, Deserializer.clearEsc_ck] at hcases
      obtain ⟨hst, rfl, rfl⟩ | ⟨hst, rfl, rfl⟩ | ⟨hst, stored, -, rfl, rfl⟩ | ⟨hst, rfl, ⟨hres, f, hheld, rfl⟩ | ⟨hres, rfl⟩⟩ :=
        hcases
      · simp [hst, yieldResult]
      · simp +contextual [hst, yieldResult, Deserializer.bodyHeader]
      · simp +contextual [hst, yieldResult, Deserializer.bodyPayload, BitVec.ne_of_lt]
      · obtain ⟨-, hservice, hpayload⟩ := Deserializer.heldFrame_eq_some.mp hheld
        simpa [hst, hres, Deserializer.reset, yieldResult] using ⟨hservice, hpayload⟩
      · simp [hst, hres, Deserializer.reset, yieldResult]

end Sys2Proof.Machine
end

section
/-! PROOFS. The escaped content bytes of a Frame (R86, R89): no flag among them, every escape flag before a code, and read back they
are the content bytes again (R171). -/

namespace Sys2Proof.Machine

/-- The wire form of a content byte: an escape flag and the code that stands for the byte, or the byte as it is (R86). -/
theorem enc_cases (x : Byte) :
    (∃ code, enc x = [escapeFlag, code] ∧ (code = escapeCode55 ∨ code = escapeCodeAA) ∧ contentByte true code = some x) ∨
      (enc x = [x] ∧ contentByte false x = some x) := by
  by_cases hflag : x = leadingFlag
  · subst hflag
    exact .inl ⟨escapeCode55, rfl, .inl rfl, rfl⟩
  by_cases hescape : x = escapeFlag
  · subst hescape
    exact .inl ⟨escapeCodeAA, rfl, .inr rfl, rfl⟩
  · exact .inr ⟨enc_of_ne hflag hescape, contentByte_of_lit (lit_wellFormed_iff.mpr ⟨hflag, hescape⟩)⟩

section
variable {esc : Bool} {b x : Byte} {B W rest : List Byte}

/-- A raw byte that stands for a content byte is read as that byte, with no escape pending after it (R87). -/
theorem unescape_content (hx : contentByte esc b = some x) (rest : List Byte) :
    unescape esc (b :: rest) = (unescape false rest).map (x :: ·) := by
  cases esc
  · obtain ⟨-, hescape, rfl⟩ := contentByte_of_not_esc hx
    rw [unescape, if_neg hescape]
  · obtain ⟨-, hcode⟩ := contentByte_of_esc hx
    rw [unescape, hcode, Option.bind_some]

theorem unescape_escapeFlag (rest : List Byte) : unescape false (escapeFlag :: rest) = unescape true rest := if_pos rfl

/-- The wire form of a content byte is read as that byte. -/
theorem unescape_enc_append (x : Byte) (rest : List Byte) :
    unescape false (enc x ++ rest) = (unescape false rest).map (x :: ·) := by
  obtain ⟨code, henc, -, hcode⟩ | ⟨henc, hlit⟩ := enc_cases x
  · rw [henc, List.cons_append, unescape_escapeFlag]
    exact unescape_content hcode rest
  · rw [henc]
    exact unescape_content hlit rest

/-- Escaped bytes are read as the bytes themselves (R94). -/
theorem unescape_flatMap_enc (B : List Byte) : unescape false (B.flatMap enc) = some B := by
  induction B with
  | nil => rfl
  | cons x B ih => rw [List.flatMap_cons, unescape_enc_append, ih, Option.map_some]

theorem leadingFlag_notMem_enc (x : Byte) : leadingFlag ∉ enc x := by
  obtain ⟨code, henc, rfl | rfl, -⟩ | ⟨henc, hlit⟩ := enc_cases x
  · rw [henc]
    decide
  · rw [henc]
    decide
  · obtain ⟨hflag, -, -⟩ := contentByte_of_not_esc hlit
    rw [henc, List.mem_singleton]
    exact hflag.symm

/-- A flag is never part of escaped bytes (R86). -/
theorem leadingFlag_notMem_flatMap_enc (B : List Byte) : leadingFlag ∉ B.flatMap enc := fun h =>
  let ⟨x, _, hx⟩ := List.mem_flatMap.mp h
  leadingFlag_notMem_enc x hx

/-- At every place with an escape flag, an escape code is at the next one (R171). -/
def EscapesPaired (W : List Byte) : Prop :=
  ∀ k : Nat, W[k]? = some escapeFlag → W[k + 1]? = some escapeCode55 ∨ W[k + 1]? = some escapeCodeAA

theorem EscapesPaired.nil : EscapesPaired [] := fun k h => by simp at h

theorem EscapesPaired.cons (hb : b ≠ escapeFlag) (h : EscapesPaired W) : EscapesPaired (b :: W)
  | 0, h0 => absurd (Option.some.inj h0) hb
  | k + 1, hk => h k hk

theorem EscapesPaired.cons_pair {code : Byte} (hcode : code = escapeCode55 ∨ code = escapeCodeAA)
    (h : EscapesPaired (code :: W)) : EscapesPaired (escapeFlag :: code :: W)
  | 0, _ => hcode.imp (congrArg some) (congrArg some)
  | k + 1, hk => h k hk

theorem EscapesPaired.enc_append (x : Byte) (h : EscapesPaired W) : EscapesPaired (enc x ++ W) := by
  obtain ⟨code, henc, hcode, -⟩ | ⟨henc, hlit⟩ := enc_cases x
  · have hne : code ≠ escapeFlag := by rcases hcode with rfl | rfl <;> decide
    rw [henc]
    exact cons_pair hcode (cons hne h)
  · obtain ⟨-, hescape, -⟩ := contentByte_of_not_esc hlit
    rw [henc]
    exact cons hescape h

/-- Escaped bytes keep their pairs whole, whatever paired bytes follow. -/
theorem EscapesPaired.flatMap_enc_append (B : List Byte) (h : EscapesPaired W) : EscapesPaired (B.flatMap enc ++ W) := by
  induction B with
  | nil => exact h
  | cons x B ih =>
    rw [List.flatMap_cons, List.append_assoc]
    exact enc_append x ih

end

section
variable (c : Checksum) (f : Frame) (e : Bool)

/-- The wire form keeps its pairs whole: the flags around the content are no escape flags (R89). -/
theorem escapesPaired_wireOf : EscapesPaired (wireOf c f e) := by
  have hne : leadingFlag ≠ escapeFlag := by decide
  have heof : EscapesPaired (if e then [leadingFlag] else []) := by
    cases e
    · exact .nil
    · exact .cons hne .nil
  exact .cons hne (.flatMap_enc_append _ heof)

/-- A flag of the wire form is its first byte or, as the EOF flag, its last (R89). -/
theorem leadingFlag_place_wireOf {k : Nat} (h : (wireOf c f e)[k]? = some leadingFlag) :
    k = 0 ∨ (e = true ∧ k + 1 = (wireOf c f e).length) := by
  cases k with
  | zero => exact .inl rfl
  | succ k =>
    right
    rw [wireOf, List.getElem?_cons_succ, List.getElem?_append] at h
    split_ifs at h with hcontent heof
    · exact absurd (List.mem_of_getElem? h) (leadingFlag_notMem_flatMap_enc _)
    · obtain ⟨hlast, -⟩ := List.getElem?_eq_some_iff.mp h
      rw [List.length_singleton] at hlast
      refine ⟨heof, ?_⟩
      simp only [wireOf, heof, if_true, List.length_cons, List.length_append, List.length_nil]
      omega
    · simp at h

end

/-- Settles O30: between the flags stand the escaped content bytes, and each of the three claims holds of escaped bytes. -/
theorem escapingIsCorrect : Obligations.EscapingIsCorrect := by
  unfold Obligations.EscapingIsCorrect
  exact fun c f e => ⟨fun _ => leadingFlag_place_wireOf c f e, escapesPaired_wireOf c f e,
    (frameContent c f).flatMap enc, rfl, unescape_flatMap_enc (frameContent c f)⟩

end Sys2Proof.Machine
end

section
/-! PROOFS. Wire forms fed to the receiver in any state (R97): one Frame, several in a row, and after bytes that are no frame (R170,
R174, R176, R177). -/

namespace Sys2Proof.Machine

/-- The EOF flag is one more byte after the wire form without it (R89). -/
theorem wireOf_true (c : Checksum) (f : Frame) : wireOf c f true = wireOf c f false ++ [leadingFlag] := by
  simp [wireOf]

theorem enc_ne_nil (x : Byte) : enc x ≠ [] := List.ne_nil_of_length_pos (one_le_length_enc x)

/-- All of the wire form but the last byte of the checksum. -/
theorem dropLast_wireOf (c : Checksum) (f : Frame) :
    (wireOf c f false).dropLast =
      (leadingFlag :: (enc (frameHeader f) ++ f.payload.flatMap enc)) ++ (enc (frameChecksum c f)).dropLast := by
  rw [← List.dropLast_append_of_ne_nil (enc_ne_nil _)]
  simp [wireOf, frameContent]

section
variable {c : Checksum} {d d' : Deserializer} {b : Byte} {W N : List Byte} {F : List Frame}

/-- Until its last byte has come, the wire form of a content byte yields nothing (R143). -/
theorem Deserializer.feed_dropLast_enc (x : Byte) (hesc : d.esc = false) :
    ∃ d', d.feed c (enc x).dropLast = some (d', []) := by
  obtain ⟨code, henc, -⟩ | ⟨henc, -⟩ := enc_cases x
  · rw [henc]
    exact ⟨_, feed_singleton (push_escape hesc)⟩
  · rw [henc]
    exact ⟨d, rfl⟩

/-- The Frame is yielded by the last wire byte of its checksum and not before (R170). -/
theorem Deserializer.feed_dropLast_wireOf (f : Frame) :
    ∃ d', d.feed c (wireOf c f false).dropLast = some (d', []) := by
  obtain ⟨d', hlast⟩ := feed_dropLast_enc (c := c)
    (d := receiving c f.service (BitVec.ofNat 6 f.payload.length) f.payload) (frameChecksum c f) rfl
  rw [dropLast_wireOf]
  exact ⟨d', feed_append (feed_header_payload f) hlast⟩

/-- After a flag that closed something else, the wire form without its own SOF flag still yields its Frame (R155). -/
theorem Deserializer.feed_tail_wireOf (f : Frame) (e : Bool) :
    ∃ d', (d.takeFlag c).feed c (wireOf c f e).tail = some (d', [f]) := by
  obtain ⟨d₁, y, F, hpush, hfeed, hF⟩ := feed_cons_eq_some (feed_wireOf (c := c) (d := d) f e)
  obtain ⟨rfl, rfl⟩ := recv_unique hpush push_flag
  obtain rfl : [f] = F := hF
  exact ⟨_, hfeed⟩

/-- The wire forms of any Frames yield them in order (R177). -/
theorem Deserializer.feed_flatMap_wireOf (L : List (Frame × Bool)) :
    ∃ d', d.feed c (L.flatMap fun p => wireOf c p.1 p.2) = some (d', L.map Prod.fst) := by
  induction L generalizing d with
  | nil => exact ⟨d, rfl⟩
  | cons p L ih =>
    obtain ⟨d', hrest⟩ := ih (d := if p.2 then (reset c).takeFlag c else reset c)
    exact ⟨d', feed_append (feed_wireOf p.1 p.2) hrest⟩

/-- Any bytes are answered and keep the invariants (R38, R176). -/
theorem Deserializer.Inv.feed (h : d.Inv c) (W : List Byte) : ∃ d' F, d.feed c W = some (d', F) ∧ d'.Inv c := by
  induction W generalizing d with
  | nil => exact ⟨d, [], rfl, h⟩
  | cons b W ih =>
    obtain ⟨d₁, y, hpush, hinv₁⟩ := h.push b
    obtain ⟨d', F, hfeed, hinv⟩ := ih hinv₁
    exact ⟨d', _, feed_cons hpush hfeed, hinv⟩

/-- A receiver that searches a flag has under the invariants no register but the escape bit away from its reset value (R38). -/
theorem Deserializer.Inv.eq_reset_of_searchSof (h : d.Inv c) (hst : d.state = .searchSof) :
    d = { reset c with esc := d.esc } := by
  obtain ⟨hck, hservice, hlen, hidx, hpayload⟩ := h.idle (.inl hst)
  change Deserializer.mk d.state d.esc d.ck d.service d.len d.idx d.payload = _
  rw [hst, hck, hservice, hlen, hidx, hpayload]
  rfl

/-- A byte that is no flag is dropped while a flag is searched (R142, R143, R145). -/
theorem Deserializer.push_of_searchSof (hst : d.state = .searchSof) (hb : b ≠ leadingFlag) :
    ∃ d', d.push c b = some (d', none) ∧ d'.state = .searchSof := by
  obtain hflag | ⟨hesc, rfl⟩ | ⟨hesc, hflag, hbad⟩ | ⟨x, hx⟩ := raw_cases d.esc b
  · exact absurd hflag hb
  · exact ⟨_, push_escape hesc, hst⟩
  · exact ⟨_, push_badCode hesc hflag hbad, rfl⟩
  · exact ⟨_, (push_content hx).trans (body_searchSof hst), hst⟩

/-- Noise that holds no flag yields nothing while a flag is searched (R174). -/
theorem Deserializer.feed_noise (hst : d.state = .searchSof) (hN : leadingFlag ∉ N) :
    ∃ d', d.feed c N = some (d', []) ∧ d'.state = .searchSof := by
  induction N generalizing d with
  | nil => exact ⟨d, rfl, hst⟩
  | cons b N ih =>
    obtain ⟨hb, hN⟩ := not_or.mp (List.mem_cons.not.mp hN)
    obtain ⟨d₁, hpush, hst₁⟩ := push_of_searchSof (c := c) hst (Ne.symm hb)
    obtain ⟨d', hfeed, hst'⟩ := ih hst₁ hN
    exact ⟨d', feed_cons hpush hfeed, hst'⟩

/-- Bytes that leave a receiver searching where they found it searching changed, under the invariants, its escape bit only. -/
theorem Deserializer.Inv.feed_searchSof (h : d.Inv c) (hst : d.state = .searchSof)
    (hfeed : d.feed c W = some (d', F)) (hst' : d'.state = .searchSof) : d' = { d with esc := d'.esc } := by
  obtain ⟨d₁, F₁, hfeed₁, hinv₁⟩ := h.feed W
  obtain ⟨rfl, -⟩ := Prod.mk.inj (Option.some.inj (hfeed₁.symm.trans hfeed))
  rw [h.eq_reset_of_searchSof hst]
  exact hinv₁.eq_reset_of_searchSof hst'

end

/-- Settles O54: the SOF flag drops whatever the receiver held, and the checksum byte the sender computed is the one it accepts. -/
theorem roundTrip : Obligations.RoundTrip := by
  unfold Obligations.RoundTrip
  intro f s
  obtain ⟨d, hbefore⟩ := Deserializer.feed_dropLast_wireOf (c := Config.checksum) (d := s.des) f
  obtain ⟨r, hfeed⟩ := feed_of_des_feed hbefore
  obtain ⟨r', hfeed'⟩ := feed_of_des_feed (s := s) (Deserializer.feed_wireOf f false)
  obtain ⟨r'', hfeed''⟩ := feed_of_des_feed (s := s) (Deserializer.feed_wireOf f true)
  exact ⟨⟨_, hfeed⟩, ⟨_, hfeed', rfl, rfl, rfl⟩, ⟨_, hfeed'', rfl, rfl, rfl⟩, wireOf_true Config.checksum f⟩

/-- Settles O56: the noise leaves the receiver searching, from where, as from any state, the wire form yields its Frame. -/
theorem resyncAfterGarbage : Obligations.ResyncAfterGarbage := by
  unfold Obligations.ResyncAfterGarbage
  intro N f e s hst hN
  obtain ⟨d, hnoise, hst'⟩ := Deserializer.feed_noise (c := Config.checksum) hst hN
  obtain ⟨r, hfeed⟩ := feed_of_des_feed hnoise
  obtain ⟨r', hfeed'⟩ := feed_of_des_feed (Deserializer.feed_append hnoise (Deserializer.feed_wireOf f e))
  exact ⟨⟨_, hfeed, hst', fun h => h.des.feed_searchSof hst hnoise hst'⟩, _, hfeed'⟩

/-- Settles O57: the invariants are enough for every byte to be answered, and the wire form needs nothing of the state it finds. -/
theorem recoveryAtTheNextFrame : Obligations.RecoveryAtTheNextFrame := by
  unfold Obligations.RecoveryAtTheNextFrame
  intro X f e s h
  obtain ⟨d, F, hX, -⟩ := h.des.feed X
  obtain ⟨r, hfeed⟩ := feed_of_des_feed hX
  obtain ⟨r', hfeed'⟩ := feed_of_des_feed (s := s.putDes d r) (Deserializer.feed_wireOf f e)
  exact ⟨_, _, F, hfeed, hfeed'⟩

/-- Settles O58: each wire form yields its Frame from the state the one before it left, also where that one's EOF flag is its SOF
flag. -/
theorem framesBackToBack : Obligations.FramesBackToBack := by
  unfold Obligations.FramesBackToBack
  refine ⟨fun L s => ?_, fun f g e s => ?_⟩
  · obtain ⟨d, hL⟩ := Deserializer.feed_flatMap_wireOf (c := Config.checksum) (d := s.des) L
    obtain ⟨r, hfeed⟩ := feed_of_des_feed hL
    exact ⟨_, hfeed⟩
  · obtain ⟨d, hg⟩ := Deserializer.feed_tail_wireOf (c := Config.checksum) (d := Deserializer.reset Config.checksum) g e
    obtain ⟨r, hfeed⟩ := feed_of_des_feed (s := s) (Deserializer.feed_append (Deserializer.feed_wireOf f true) hg)
    exact ⟨_, hfeed⟩

end Sys2Proof.Machine
end

section
/-! PROOFS. What was on the wire since the last flag (R178): every byte pushed adds to what the receiver has taken of a frame, so a
Frame it yields was there. -/

namespace Sys2Proof.Machine

/-- The content bytes taken of the frame in progress: none before its header, then the header and the payload so far. -/
def Deserializer.taken (d : Deserializer) : List Byte :=
  if d.state = .readPayload ∨ d.state = .readCrc then pack d.service d.len :: d.payload else []

/-- Raw bytes without a flag that spell the content bytes taken, and after them leave the escape bit as it is. -/
def Deserializer.SpelledBy (d : Deserializer) (since : List Byte) : Prop :=
  leadingFlag ∉ since ∧ ∀ rest, unescape false (since ++ rest) = (unescape d.esc rest).map (d.taken ++ ·)

/-- If the receiver is inside a frame, the bytes it was fed end in a flag and bytes that spell what it has taken of that frame. -/
def Deserializer.Heard (d : Deserializer) (W : List Byte) : Prop :=
  d.state ≠ .searchSof → ∃ before since, W = before ++ leadingFlag :: since ∧ d.SpelledBy since

section
variable {c : Checksum} {d d' : Deserializer} {b x : Byte} {since A W : List Byte} {y : Option Frame} {F : List Frame}

/-- A flag stands for no content byte (R81). -/
theorem ne_leadingFlag_of_contentByte {esc : Bool} (hx : contentByte esc b = some x) : b ≠ leadingFlag := by
  rintro rfl
  simp [contentByte] at hx

/-- A flag starts afresh: no byte since, nothing taken (R141). -/
theorem Deserializer.spelledBy_takeFlag : (d.takeFlag c).SpelledBy [] :=
  ⟨List.not_mem_nil, fun rest => by simp [takeFlag, taken, reset]⟩

/-- An escape flag is one more byte since, and nothing more taken (R143). -/
theorem Deserializer.SpelledBy.escape (h : d.SpelledBy since) (hesc : d.esc = false) :
    d.takeEscape.SpelledBy (since ++ [escapeFlag]) := by
  obtain ⟨hno, hread⟩ := h
  refine ⟨by simp [hno, leadingFlag, escapeFlag], fun rest => ?_⟩
  rw [List.append_assoc, hread, hesc, List.singleton_append, unescape_escapeFlag]
  rfl

/-- A content byte is one more byte since, and itself taken. -/
theorem Deserializer.SpelledBy.content (h : d.SpelledBy since) (hx : contentByte d.esc b = some x)
    (htaken : d'.taken = d.taken ++ [x]) (hesc : d'.esc = false) : d'.SpelledBy (since ++ [b]) := by
  obtain ⟨hno, hread⟩ := h
  have hb := ne_leadingFlag_of_contentByte hx
  refine ⟨by simp [hno, hb.symm], fun rest => ?_⟩
  rw [List.append_assoc, hread, List.singleton_append, unescape_content hx, htaken, hesc, Option.map_map]
  simp [Function.comp_def]

/-- The header is the first byte taken (R146). -/
theorem Deserializer.taken_bodyHeader (hst : d.state = .readHeader) : (d.bodyHeader c x).taken = d.taken ++ [x] := by
  have hnext : (d.bodyHeader c x).state = .readPayload ∨ (d.bodyHeader c x).state = .readCrc := by
    rw [bodyHeader]
    split_ifs <;> simp
  rw [taken, if_pos hnext, taken, if_neg (by simp [hst])]
  exact congrArg (· :: []) (pack_headerService_headerLength x)

/-- A payload byte is taken after the header and the payload before it (R147). -/
theorem Deserializer.taken_bodyPayload (hst : d.state = .readPayload) :
    (d.bodyPayload c x (d.payload ++ [x])).taken = d.taken ++ [x] := by
  have hnext : (d.bodyPayload c x (d.payload ++ [x])).state = .readPayload ∨
      (d.bodyPayload c x (d.payload ++ [x])).state = .readCrc := by
    rw [bodyPayload]
    split_ifs <;> simp
  rw [taken, if_pos hnext, taken, if_pos (.inl hst)]
  rfl

/-- A content byte that leaves the receiver inside a frame was taken. -/
theorem Deserializer.Inv.taken_body (h : d.Inv c) (hbody : d.body c x = some (d', y)) (hst : d.state ≠ .searchSof)
    (hst' : d'.state ≠ .searchSof) : d'.taken = d.taken ++ [x] ∧ d'.esc = d.esc := by
  obtain ⟨hsearch, -⟩ | ⟨hheader, rfl, -⟩ | ⟨hpayload, -⟩ | ⟨-, rfl, -⟩ := body_cases hbody
  · exact absurd hsearch hst
  · exact ⟨taken_bodyHeader hheader, rfl⟩
  · obtain ⟨hidx, hlen, -⟩ := h.readPayload hpayload
    obtain ⟨rfl, -⟩ := recv_unique hbody (body_readPayload hpayload hidx hlen)
    exact ⟨taken_bodyPayload hpayload, rfl⟩
  · exact absurd rfl hst'

/-- Every raw byte pushed adds to what was heard (R140). -/
theorem Deserializer.Heard.push (h : d.Heard W) (hinv : d.Inv c) (hpush : d.push c b = some (d', y)) :
    d'.Heard (W ++ [b]) := by
  intro hst'
  obtain ⟨rfl, rfl, -⟩ | ⟨hesc, rfl, rfl, -⟩ | ⟨-, -, -, rfl, -⟩ | ⟨x, hx, hbody⟩ := push_cases hpush
  · exact ⟨W, [], rfl, spelledBy_takeFlag⟩
  · obtain ⟨before, since, rfl, hsince⟩ := h hst'
    exact ⟨before, _, List.append_assoc .., hsince.escape hesc⟩
  · exact absurd rfl hst'
  · have hst : d.state ≠ .searchSof := hst' ∘ push_searchSof hpush (ne_leadingFlag_of_contentByte hx)
    obtain ⟨before, since, rfl, hsince⟩ := h hst
    obtain ⟨htaken, hesc⟩ := (hinv.setEsc false).taken_body hbody hst hst'
    exact ⟨before, _, List.append_assoc .., hsince.content hx htaken hesc⟩

/-- So do raw bytes fed one after the other. -/
theorem Deserializer.Heard.feed (h : d.Heard A) (hinv : d.Inv c) (hfeed : d.feed c W = some (d', F)) :
    d'.Heard (A ++ W) ∧ d'.Inv c := by
  induction W generalizing d A F with
  | nil =>
    obtain ⟨rfl, -⟩ : d = d' ∧ [] = F := by simpa [Deserializer.feed] using hfeed
    rw [List.append_nil]
    exact ⟨h, hinv⟩
  | cons b W ih =>
    obtain ⟨d₁, y, F', hpush, hrest, -⟩ := feed_cons_eq_some hfeed
    obtain ⟨d₂, y₂, hpush₂, hinv₂⟩ := hinv.push b
    obtain ⟨rfl, -⟩ := recv_unique hpush₂ hpush
    rw [List.append_cons]
    exact ih (h.push hinv hpush) hinv₂ hrest

/-- With the whole Frame stored, what was taken is its header and its payload, and the checksum register holds theirs (R38). -/
theorem Deserializer.Inv.held_of_readCrc {f : Frame} (h : d.Inv c) (hst : d.state = .readCrc)
    (hservice : f.service = d.service) (hpayload : f.payload = d.payload.take d.len.toNat) :
    d.taken = frameHeader f :: f.payload ∧ d.ck = ckOf c (frameHeader f :: f.payload) := by
  obtain ⟨hidx, hlen, hck⟩ := h.readCrc hst
  rw [hidx] at hlen
  have hall : f.payload = d.payload := by rw [hpayload, ← hlen, List.take_length]
  have hheader : frameHeader f = pack d.service d.len := by
    rw [frameHeader, hservice, hall, hlen, BitVec.ofNat_toNat, BitVec.setWidth_eq]
  rw [hheader, hall]
  exact ⟨if_pos (.inr hst), hck⟩

/-- A Frame yielded was heard: since the last flag its header, its payload and a byte that makes the residue valid (R178). -/
theorem Deserializer.Heard.of_yield {f : Frame} (h : d.Heard W) (hinv : d.Inv c)
    (hpush : d.push c b = some (d', some f)) :
    ∃ before since k, W ++ [b] = before ++ leadingFlag :: since ∧ leadingFlag ∉ since ∧
      unescape false since = some (frameHeader f :: (f.payload ++ [k])) ∧
      ckOf c (frameHeader f :: (f.payload ++ [k])) = 0#8 := by
  obtain ⟨hst, hservice, hpayload, k, hk, hres⟩ := (push_yields_iff hpush).mp rfl
  obtain ⟨htaken, hck⟩ := hinv.held_of_readCrc hst hservice hpayload
  obtain ⟨before, since, rfl, hno, hread⟩ := h (by simp [hst])
  have hb := ne_leadingFlag_of_contentByte hk
  refine ⟨before, since ++ [b], k, List.append_assoc .., by simp [hno, hb.symm], ?_, ?_⟩
  · rw [hread, unescape_content hk, htaken]
    rfl
  · rw [← List.cons_append, ckOf_append_singleton, ← hck, hres]

end

/-- The header of a Frame unpacks to its service and length (R84, R89). -/
theorem unpack_frameHeader (f : Frame) : unpack (frameHeader f) = (f.service, BitVec.ofNat 6 f.payload.length) := by
  rw [frameHeader, unpack, headerService_pack, headerLength_pack]

/-- Settles O59: a fresh receiver has heard nothing, each byte adds to what was heard, and the Frame yielded is what was heard. -/
theorem yieldedFramesAreStructurallyValid : Obligations.YieldedFramesAreStructurallyValid := by
  unfold Obligations.YieldedFramesAreStructurallyValid
  intro W b s t u F f hs hfeed hexec hresult
  have hinv : s.des.Inv Config.checksum := hs ▸ Deserializer.reset_inv
  have hfresh : s.des.Heard [] := fun hst => absurd (congrArg Deserializer.state hs) hst
  obtain ⟨d, F', hW, -⟩ := hinv.feed W
  obtain ⟨r, hfeed'⟩ := feed_of_des_feed hW
  obtain ⟨rfl, -⟩ := Prod.mk.inj (Host.Outcome.next.inj (hfeed'.symm.trans hfeed))
  obtain ⟨hheard, hinv'⟩ := hfresh.feed hinv hW
  obtain ⟨d', y, hpush, rfl⟩ := receive_next hexec
  obtain rfl := yieldResult_eq_frame_iff.mp hresult
  obtain ⟨before, since, k, hWb, hno, hread, hres⟩ := hheard.of_yield hinv' hpush
  exact ⟨f.bound, before, since, frameHeader f, k, hWb, hno, hread, unpack_frameHeader f, hres⟩

end Sys2Proof.Machine
end

section
/-! PROOFS. One changed byte, with a checksum that is injective in the byte and in the accumulator (R115, R172). -/

namespace Sys2Proof.Machine

section
variable {c : Checksum} {d : Deserializer} {sv : BitVec 2} {n : BitVec 6} {B P Q : List Byte} {p x y : Byte}

/-- With `CK_INJ_ACC` the same bytes folded into different accumulators leave different ones. -/
theorem InjAcc.foldl_injective (h : InjAcc c) (B : List Byte) : Function.Injective (B.foldl c.step) := by
  induction B with
  | nil => exact fun _ _ heq => heq
  | cons b B ih => exact fun v v' heq => h v v' b (ih heq)

/-- Two sequences that differ in one byte have different checksums (R115). -/
theorem ckOf_ne_of_changed (hbyte : InjByte c) (hacc : InjAcc c) (hne : y ≠ p) (P Q : List Byte) :
    ckOf c (P ++ y :: Q) ≠ ckOf c (P ++ p :: Q) := by
  intro heq
  rw [ckOf_append, ckOf_append] at heq
  exact hne (hbyte _ _ _ (hacc.foldl_injective Q heq))

/-- The bytes of a frame whose checksum byte leaves an invalid residue: from any state, no Frame, and the receiver is reset and
has then taken the EOF flag if there is one (R148, R193). -/
theorem Deserializer.feed_invalid_checksum (e : Bool) (hlen : B.length = n.toNat)
    (hres : c.step (ckOf c (pack sv n :: B)) x ≠ 0#8) :
    d.feed c (leadingFlag :: (enc (pack sv n) ++ (B.flatMap enc ++ (enc x ++ if e then [leadingFlag] else [])))) =
      some ({ reset c with state := if e then .readHeader else .searchSof }, []) := by
  have hpayload : (receiving c sv n []).feed c (B.flatMap enc) = some (receiving c sv n B, []) :=
    receiving_feed_payload (by rw [List.length_nil, hlen, Nat.zero_add])
  have hinvalid : ¬residueValid (ckWrite c (receiving c sv n B).ck x) = true := hres ∘ (residueValid_iff _).mp
  have hsum : (receiving c sv n B).body c x = some (reset c, none) := by
    rw [body_readCrc (if_neg hlen.not_lt), bodyCrc, if_neg hinvalid]
    rfl
  have hflag : (reset c).feed c (if e then [leadingFlag] else []) =
      some ({ reset c with state := if e then .readHeader else .searchSof }, []) := by
    cases e
    · rfl
    · exact feed_singleton push_flag
  exact feed_cons push_flag (feed_append (feed_enc rfl takeFlag_body_header)
    (feed_append hpayload (feed_append (feed_enc rfl hsum) hflag)))

end

/-- Settles O60: a payload byte changed gives the receiver another checksum than the one sent, and of an accumulator only one
byte leaves the valid residue. -/
theorem checksumRejectsOneChangedByte : Obligations.ChecksumRejectsOneChangedByte := by
  unfold Obligations.ChecksumRejectsOneChangedByte
  refine ⟨fun W s d F hfeed => ?_, fun c f e d y hbyte hacc hflag hescape => ⟨fun P p Q hf _ _ hne => ?_, fun _ _ hne => ?_⟩⟩
  · obtain ⟨r, hblock⟩ := feed_of_des_feed hfeed
    exact ⟨_, hblock, rfl⟩
  · have hlen : (P ++ y :: Q).length = (BitVec.ofNat 6 f.payload.length).toNat := by
      rw [toNat_payload_length, hf, List.length_append, List.length_append, List.length_cons, List.length_cons]
    have hres : c.step (ckOf c (frameHeader f :: (P ++ y :: Q))) (frameChecksum c f) ≠ 0#8 := by
      intro hzero
      refine ckOf_ne_of_changed hbyte hacc hne (frameHeader f :: P) Q ?_
      rw [List.cons_append, List.cons_append, ← hf]
      exact ((injectiveResidueTest c hbyte _ _).mp hzero).symm
    have hfeed := Deserializer.feed_invalid_checksum (d := d) e hlen hres
    rw [List.flatMap_append, List.flatMap_cons, enc_of_ne hflag hescape, List.append_assoc, List.append_assoc] at hfeed
    exact hfeed
  · have hres : c.step (ckOf c (frameHeader f :: f.payload)) y ≠ 0#8 := fun hzero =>
      hne ((injectiveResidueTest c hbyte _ _).mp hzero)
    have hfeed := Deserializer.feed_invalid_checksum (d := d) e (toNat_payload_length f).symm hres
    rw [enc_of_ne hflag hescape] at hfeed
    exact hfeed

end Sys2Proof.Machine
end

section
/-! PROOFS. The operation resets of the three components, together (R175). -/

namespace Sys2Proof.Machine

/-- Settles O49: each reset was settled for its own component; `SER.RESTART` is `SER.LOAD` of what is held. -/
theorem resetsAreIdempotent : Obligations.ResetsAreIdempotent := by
  unfold Obligations.ResetsAreIdempotent
  rintro i s t (rfl | rfl | rfl) hexec
  · obtain rfl := Host.Outcome.next.inj ((exec_ckReset s).symm.trans hexec)
    exact ⟨exec_ckReset _, fun _ => rfl, nofun, nofun⟩
  · obtain rfl := Host.Outcome.next.inj ((exec_serRestart s).symm.trans hexec)
    exact ⟨exec_serRestart _, nofun, nofun, fun _ f hservice hpayload hlen =>
      ⟨_, rfl, (Serializer.restart_eq_load hservice hpayload hlen).symm⟩⟩
  · obtain rfl := Host.Outcome.next.inj ((exec_desReset s).symm.trans hexec)
    exact ⟨exec_desReset _, nofun, fun _ => rfl, nofun⟩

end Sys2Proof.Machine
end

section
/-! PROOFS. The conditions of `60_exceptions.md`: which step returns `Fault` and sets the fault bit (R192), and what a bad escape
code does to the receiver (R194). -/

namespace Sys2Proof.Machine

section
variable {b : Byte} {W : List Byte} {i : Instr} {s t : State}

/-- A raw byte returns `None` or a Frame (R140). -/
theorem receive_result_ne_fault (h : receive b s = .next t) : t.result ≠ .fault := by
  obtain ⟨d, y, -, rfl⟩ := receive_next h
  cases y <;> exact nofun

/-- Raw bytes that arrive one after the other return what the last of them does. -/
theorem receiveAll_result_ne_fault (hne : W ≠ []) (h : receiveAll W s = .next t) : t.result ≠ .fault := by
  induction W generalizing s with
  | nil => exact absurd rfl hne
  | cons b W ih =>
    obtain ⟨s₁, hfirst, hrest⟩ := receiveAll_cons_next h
    cases W with
    | nil =>
      obtain rfl := Host.Outcome.next.inj hrest
      exact receive_result_ne_fault hfirst
    | cons b' W => exact ih (List.cons_ne_nil b' W) hrest

/-- Of the instructions only `SER.NEXT` can return `Fault` (R12, R192). -/
theorem exec_result_ne_fault (hi : i ≠ .serNext) (hexec : exec i s = .next t) : t.result ≠ .fault := by
  cases i
  case serNext => exact absurd rfl hi
  case reserved => exact nomatch hexec
  case header sv n => exact receiveAll_result_ne_fault (enc_ne_nil (pack sv n)) hexec
  case enc55 | encAA => exact receiveAll_result_ne_fault (List.cons_ne_nil _ _) hexec
  case flag | code55 | codeAA | badCode | esc | lit | desPush =>
    exact receive_result_ne_fault ((exec_of_rawByte rfl s).symm.trans hexec)
  case ckWrite | ckReset | ckValue | serLoad | serRestart | serDone | desReset | nop =>
    obtain rfl := Host.Outcome.next.inj hexec
    exact nofun

end

/-- Settles O21: no other instruction returns `Fault`, and `SER.NEXT` returns it when it finds the serializer done. -/
theorem onlyOverrunReturnsFault : Obligations.OnlyOverrunReturnsFault := by
  unfold Obligations.OnlyOverrunReturnsFault
  refine ⟨fun i s t hexec => ⟨fun hfault => ?_, ?_⟩, fun s => exec_serNext_of_done, fun s t hexec hset => ?_⟩
  · obtain rfl : i = .serNext := by_contra fun hi => exec_result_ne_fault hi hexec hfault
    exact ⟨rfl, (exec_serNext_result_eq_fault_iff hexec).mp hfault⟩
  · rintro ⟨rfl, hdone⟩
    exact (exec_serNext_result_eq_fault_iff hexec).mpr hdone
  · obtain ⟨z, p, hnext, rfl⟩ := execSerNext_next hexec
    have hfault : z.fault = (s.ser.fault || s.ser.isDone) := Serializer.next_fault hnext
    rw [hset, Bool.true_or] at hfault
    exact hfault

/-- Settles O36: with an escape pending a byte that is no flag and no code is step 2 of R140, whose code stands for nothing. -/
theorem escapeViolationResets : Obligations.EscapeViolationResets := by
  unfold Obligations.EscapeViolationResets
  intro i s b hraw hesc hflag h55 hAA
  rw [exec_of_rawByte hraw]
  exact receive_of_push (Deserializer.push_badCode hesc hflag (dec_eq_none h55 hAA))

end Sys2Proof.Machine
end

section
/-! PROOFS. When a run is good: as long as the owner pulls no byte that is not there (R192, R242). -/

namespace Sys2Proof.Machine

section
variable {s t : State} {n : Nat}

/-- After a step that answers a next state, the run is good when that step was and the steps after it are. -/
theorem goodRun_succ_iff (hstep : step s = .next t) : GoodRun (n + 1) s ↔ t.overrun = false ∧ GoodRun n t := by
  refine ⟨fun ⟨t', hstep', hgood⟩ => ?_, fun hgood => ⟨t, hstep, hgood⟩⟩
  obtain rfl := Host.Outcome.next.inj (hstep.symm.trans hstep')
  exact hgood

/-- A run of nothing but pulls is good exactly when there are no more of them than bytes left to send (R133, R192). -/
theorem goodRun_serNext_iff {k : Nat} (h : s.ser.Inv Config.checksum)
    (hin : s.inputs = List.replicate k (.word (encode .serNext))) :
    GoodRun k s ↔ k ≤ (s.ser.toSend Config.checksum).length := by
  induction k generalizing s with
  | zero => exact iff_of_true trivial (Nat.zero_le _)
  | succ k ih =>
    have hstep := step_of_decode_ok hin (decode_encode (i := .serNext) rfl (.inl rfl))
    cases hdone : s.serDone
    case true =>
      have hfault := hstep.trans (exec_serNext_of_done hdone)
      rw [goodRun_succ_iff hfault, Serializer.toSend_of_isDone hdone]
      exact iff_of_false (fun ⟨hgood, _⟩ => nomatch hgood) (Nat.not_succ_le_zero k)
    case false =>
      obtain ⟨b, z, hnext, hsend⟩ := h.next_of_not_done hdone
      have hpull := hstep.trans (execSerNext_of_next hnext)
      rw [goodRun_succ_iff hpull, hsend, List.length_cons, Nat.add_le_add_iff_right]
      exact (and_iff_right rfl).trans (ih (Serializer.next_inv h hnext) rfl)

end

/-- Settles O28: LOAD is a good step and leaves all of `wire(f, e)` to send. -/
theorem goodRunIffNotPulledPastTheEnd : Obligations.GoodRunIffNotPulledPastTheEnd := by
  unfold Obligations.GoodRunIffNotPulledPastTheEnd
  intro f e s k
  have hload := step_of_decode_ok
    (s := { s with inputs := .word (encode (.serLoad f e)) :: List.replicate k (.word (encode .serNext)) }) rfl
    (decode_encode rfl (.inl rfl))
  exact (goodRun_succ_iff hload).trans ((and_iff_right rfl).trans (goodRun_serNext_iff (Serializer.load_inv f e) rfl))

end Sys2Proof.Machine
end
